-- ==== Sys2Proof/Word.lean ====
section
/-! DEFINITION. The word types of the block (R31, R45): a command word of 32 bits, a byte, a 7-bit group. -/

namespace Sys2Proof

/-- A command word (R45): one 32-bit number. -/
abbrev Word := BitVec 32

/-- An element of `B[k]` and of `O` (R31). -/
abbrev Byte := BitVec 8

/-- An element of `BP.G` (R14, R31): one 7-bit group. -/
abbrev Group := BitVec 7

/-- The four input buffers by role (R11, R52): `M = B[0]`, `S = B[1]`, `D = B[2]`, `P = B[3]`. -/
inductive Buf where
  | m
  | s
  | d
  | p
deriving DecidableEq, Repr

end Sys2Proof
end

