-- ==== Sys2Proof/Syntax.lean ====
section
/-! DEFINITION. The ten commands of SXC-1 (R47), one constructor per row of spec/opcode_table.json. -/

namespace Sys2Proof

/-- A command. Buffer operands are the four buffers themselves; the scalar operands of `BPAPP` and `BPSNAP` are naturals,
as the abstract operations of R65 and R68 have them (R6), and `Instr.wellFormed` bounds them by their fields. -/
inductive Instr where
  /-- `BPCLR` (R69). -/
  | bpclr
  /-- `BPAPP w, v` (R70): bit width, value. -/
  | bpapp (w v : Nat)
  /-- `BPSNAP n` (R71): the least number of groups. -/
  | bpsnap (n : Nat)
  /-- `CKSUM b` (R82). -/
  | cksum (b : Buf)
  /-- `FBUILD` (R90). -/
  | fbuild
  /-- `FPARSE b` (R99). -/
  | fparse (b : Buf)
  /-- `HEXPARSE b` (R107). -/
  | hexparse (b : Buf)
  /-- `BUFCLR b` (R113). -/
  | bufclr (b : Buf)
  /-- `BUFPUSH b, x` (R114). -/
  | bufpush (b : Buf) (x : Byte)
  /-- `BUFCAT b` (R115). -/
  | bufcat (b : Buf)
deriving DecidableEq, Repr

end Sys2Proof
end

