-- ==== Sys2Proof/WellFormed.lean ====
section
/-! DEFINITION. Which commands the encoding reaches (R6, R46): the scalar operands fit their fields. -/

namespace Sys2Proof

/-- A command's operands fit the fields of the command word (R6, R46): the width of `BPAPP` 8 bits, its value 16 bits, the
`minGroups` of `BPSNAP` 16 bits. A buffer operand and the byte of `BUFPUSH` fit by their types. -/
def Instr.wellFormed : Instr → Bool
  | .bpclr => true
  | .bpapp w v => decide (w < 256) && decide (v < 65536)
  | .bpsnap n => decide (n < 65536)
  | .cksum _ => true
  | .fbuild => true
  | .fparse _ => true
  | .hexparse _ => true
  | .bufclr _ => true
  | .bufpush _ _ => true
  | .bufcat _ => true

end Sys2Proof
end

