-- ==== Sys2Proof/Decode.lean ====
section
/-! DEFINITION. Command words: fields (R45), the opcode map (R47), the decoder (R46 to R50), the encoder. -/

namespace Sys2Proof

/-- `W[31:24]`, the opcode (R45). -/
def opField (w : Word) : BitVec 8 := w.extractLsb' 24 8

/-- `W[23:16]`, the first operand `a` (R45). -/
def aField (w : Word) : BitVec 8 := w.extractLsb' 16 8

/-- `W[15:0]`, the second operand `imm` (R45). -/
def immField (w : Word) : BitVec 16 := w.extractLsb' 0 16

/-- The command word with the given fields (R45). -/
def packWord (op a : BitVec 8) (imm : BitVec 16) : Word :=
  op.setWidth 32 <<< 24 ||| a.setWidth 32 <<< 16 ||| imm.setWidth 32

/-- Why a word is illegal, the four cases of R49. All four are the one error `IllegalCommand` to the host (R125); where a
word falls under several, the first of this list is named (log entry 12). -/
inductive Illegal where
  /-- An `op` that is not in the map. -/
  | unknownOpcode (op : BitVec 8)
  /-- A buffer selector above 3. -/
  | selectorOutOfRange (a : BitVec 8)
  /-- A `BUFPUSH` with `imm[15:8]` nonzero. -/
  | pushByteOutOfRange (imm : BitVec 16)
  /-- A field the command does not use is not zero. -/
  | unusedFieldNonzero
deriving DecidableEq, Repr

/-- The buffer an 8-bit selector names, legal only for 0 to 3 (R46). -/
def decodeBuf (a : BitVec 8) : Option Buf :=
  if a = 0 then some .m
  else if a = 1 then some .s
  else if a = 2 then some .d
  else if a = 3 then some .p
  else none

/-- A command with no operand: both fields zero (R48). -/
def decodeBare (i : Instr) (a : BitVec 8) (imm : BitVec 16) : Except Illegal Instr :=
  if a = 0 ∧ imm = 0 then .ok i else .error .unusedFieldNonzero

/-- A command whose only operand is a buffer: `imm` zero (R48). -/
def decodeOneBuf (mk : Buf → Instr) (a : BitVec 8) (imm : BitVec 16) : Except Illegal Instr :=
  match decodeBuf a with
  | none => .error (.selectorOutOfRange a)
  | some b => if imm = 0 then .ok (mk b) else .error .unusedFieldNonzero

/-- `BUFPUSH b, x`: the byte is `imm[7:0]`, and `imm[15:8]` must be zero (R46). -/
def decodePush (a : BitVec 8) (imm : BitVec 16) : Except Illegal Instr :=
  match decodeBuf a with
  | none => .error (.selectorOutOfRange a)
  | some b =>
    if imm.extractLsb' 8 8 = 0 then .ok (.bufpush b (imm.extractLsb' 0 8)) else .error (.pushByteOutOfRange imm)

/-- `BPSNAP n`: `a` zero (R48). -/
def decodeSnap (a : BitVec 8) (imm : BitVec 16) : Except Illegal Instr :=
  if a = 0 then .ok (.bpsnap imm.toNat) else .error .unusedFieldNonzero

/-- The decoder (R46 to R50), total: a word is exactly one command or illegal (R49). -/
def decode (w : Word) : Except Illegal Instr :=
  let op := opField w
  let a := aField w
  let imm := immField w
  if op = 0x10 then decodeBare .bpclr a imm
  else if op = 0x11 then .ok (.bpapp a.toNat imm.toNat)
  else if op = 0x12 then decodeSnap a imm
  else if op = 0x20 then decodeOneBuf .cksum a imm
  else if op = 0x30 then decodeBare .fbuild a imm
  else if op = 0x31 then decodeOneBuf .fparse a imm
  else if op = 0x40 then decodeOneBuf .hexparse a imm
  else if op = 0x50 then decodeOneBuf .bufclr a imm
  else if op = 0x51 then decodePush a imm
  else if op = 0x52 then decodeOneBuf .bufcat a imm
  else .error (.unknownOpcode op)

/-- The selector of a buffer, its number (R11, R46). -/
def encodeBuf : Buf → BitVec 8
  | .m => 0
  | .s => 1
  | .d => 2
  | .p => 3

/-- The command word of a command, from the table of R47; of a well-formed command no operand bit is lost. -/
def encode : Instr → Word
  | .bpclr => packWord 0x10 0 0
  | .bpapp w v => packWord 0x11 (BitVec.ofNat 8 w) (BitVec.ofNat 16 v)
  | .bpsnap n => packWord 0x12 0 (BitVec.ofNat 16 n)
  | .cksum b => packWord 0x20 (encodeBuf b) 0
  | .fbuild => packWord 0x30 0 0
  | .fparse b => packWord 0x31 (encodeBuf b) 0
  | .hexparse b => packWord 0x40 (encodeBuf b) 0
  | .bufclr b => packWord 0x50 (encodeBuf b) 0
  | .bufpush b x => packWord 0x51 (encodeBuf b) (x.setWidth 16)
  | .bufcat b => packWord 0x52 (encodeBuf b) 0

/-- One row of the opcode map (R47): a word is the command of the row when `W & mask = pattern`. -/
structure OpRow where
  mnemonic : String
  pattern : Word
  mask : Word
deriving DecidableEq, Repr

/-- `W & mask = match` (R47). -/
def OpRow.admits (r : OpRow) (w : Word) : Bool := decide (w &&& r.mask = r.pattern)

/-- The opcode map of R47, row by row: mnemonic, match, mask. -/
def opcodeMap : List OpRow :=
  [ ⟨"BPCLR", 0x10000000, 0xFFFFFFFF⟩,
    ⟨"BPAPP", 0x11000000, 0xFF000000⟩,
    ⟨"BPSNAP", 0x12000000, 0xFFFF0000⟩,
    ⟨"CKSUM", 0x20000000, 0xFFFCFFFF⟩,
    ⟨"FBUILD", 0x30000000, 0xFFFFFFFF⟩,
    ⟨"FPARSE", 0x31000000, 0xFFFCFFFF⟩,
    ⟨"HEXPARSE", 0x40000000, 0xFFFCFFFF⟩,
    ⟨"BUFCLR", 0x50000000, 0xFFFCFFFF⟩,
    ⟨"BUFPUSH", 0x51000000, 0xFFFCFF00⟩,
    ⟨"BUFCAT", 0x52000000, 0xFFFCFFFF⟩ ]

/-- The mnemonic of a command (R47). -/
def Instr.mnemonic : Instr → String
  | .bpclr => "BPCLR"
  | .bpapp _ _ => "BPAPP"
  | .bpsnap _ => "BPSNAP"
  | .cksum _ => "CKSUM"
  | .fbuild => "FBUILD"
  | .fparse _ => "FPARSE"
  | .hexparse _ => "HEXPARSE"
  | .bufclr _ => "BUFCLR"
  | .bufpush _ _ => "BUFPUSH"
  | .bufcat _ => "BUFCAT"

/-- The command word with number `w`, of which the low `nbits` bits are given and the others are 0. -/
def tableWord (nbits w : Nat) : Word := BitVec.ofNat 32 (w % 2 ^ nbits)

/-- The command the decoder reads from the word with number `w`. A command is exactly one 32-bit word (R45, R51), so a longer
string of bits is none (log entry 11). -/
def decodeTableWord (nbits w : Nat) : Option Instr :=
  if nbits ≤ 32 then (decode (tableWord nbits w)).toOption else none

end Sys2Proof
end

