-- ==== Sys2Proof/Config.lean ====
section
/-! DEFINITION. The constants of R4, the parameters of R5, and the one value the spec leaves open. -/

namespace Sys2Proof

/-- A capacity (R5): a natural number of elements, or `inf`. -/
inductive Cap where
  | inf
  | bounded (n : Nat)
deriving DecidableEq, Repr

/-- The parameters of R5, which "the model takes as an argument"; the field defaults are the column "default".
They are not state: no command writes them and they survive reset (R142). Log entry 1. -/
structure Config where
  /-- `BUF_CAP`: most bytes one buffer holds. -/
  bufCap : Cap := .inf
  /-- `BP_CAP`: most groups the bit accumulator holds. -/
  bpCap : Cap := .inf
  /-- `MFR_LEN`: bytes of manufacturer id when a frame is parsed. -/
  mfrLen : Nat := 3
  /-- `SUB_LEN`: bytes of sub-id when a frame is parsed. -/
  subLen : Nat := 1
  /-- `DEV_LEN`: bytes of device id when a frame is parsed. -/
  devLen : Nat := 1
  /-- `HEX_LOWER`: whether `a` to `f` count as hex digits. -/
  hexLower : Bool := true
  /-- `BASE`: where a platform places the command port; no default, used by no rule (R39). -/
  base : Option Nat := none
deriving DecidableEq, Repr

/-- Every parameter at its default (R5). -/
def Config.default : Config := {}

/-- FREE VALUE (log entry 6). The group an append pops when the accumulator's bit count is not a multiple of 7 and it
holds no group at all. No run reaches such a state (R16 (a), R66), the spec names no value, and nothing constrains this one. -/
opaque Config.missingGroup : Nat → Group

/-- FREE VALUE (log entry 22). The bit at a position past the last group. R75 indexes the groups there with no bound on the
widths, no such element exists (R30), and the spec names no value; R153 says only that there is no error. -/
opaque Config.bitBeyondGroups : List Group → Nat → Bool

/-- `GW` (R4): bits per group of the bit accumulator. -/
@[simp] abbrev groupWidth : Nat := 7

/-- `DEFAULT_MIN_GROUPS` (R4, R53, R79). -/
@[simp] abbrev defaultMinGroups : Nat := 8

/-- `CK_MULT` (R4): multiplier of the checksum recurrence. -/
@[simp] abbrev ckMult : Nat := 3

/-- `CK_MOD` (R4): modulus of the checksum recurrence. -/
@[simp] abbrev ckMod : Nat := 256

/-- `CK_OUTMOD` (R4): modulus of the checksum result. -/
@[simp] abbrev ckOutMod : Nat := 128

/-- `BYTE_MAX7` (R4): the largest byte `FBUILD` accepts. -/
@[simp] abbrev byteMax7 : Nat := 0x7F

/-- `HEARTBEAT` (R4, R59): the frame `FPARSE` discards. -/
def heartbeat : List Byte :=
  [0x00, 0x21, 0x10, 0x77, 0x66, 0x00, 0x00, 0x00, 0x00, 0x20, 0x00, 0x00, 0x6D]

end Sys2Proof
end

