-- ==== Sys2Proof/Machine/State.lean ====
section
/-! DEFINITION. The architectural state (10_state.md), what an outcome can be, and the state after reset (R28). -/

namespace Sys2Proof.Machine

/-- `OKIND` (R13): which command produced `O`. The tag values 5 to 7, which never occur, have no constructor (entry 7). -/
inductive OKind where
  | none
  | groups
  | sum
  | frame
  | raw
deriving DecidableEq, Repr

/-- The log entry of a parsed frame (R97, R98). -/
inductive LogEntry where
  /-- `Fields{mfr, sub, dev, payload, cksum, ckok}` (R97). -/
  | fields (mfr sub dev payload : List Byte) (cksum : Byte) (ckok : Bool)
  /-- `Short{raw}` (R98). -/
  | short (raw : List Byte)
deriving DecidableEq, Repr

/-- An event of the trace `DIAG` (R21). The text of a dump is its sequence of ASCII codes (R60, K2; entry 9). -/
inductive DiagEvent where
  /-- `FrameDump(text)`, appended by a successful `FBUILD`. -/
  | frameDump (text : List Byte)
  /-- `Decoded(entry)`, appended by an `FPARSE` whose operand is not the heartbeat. -/
  | decoded (entry : LogEntry)
deriving DecidableEq, Repr

/-- What the host does to the block (R27 (a), (d)): it issues a command word, or it asserts reset between commands (R140). -/
inductive HostInput where
  | command (w : Word)
  | reset
deriving DecidableEq, Repr

/-- The machine's state. The first ten fields are the state of R28; `cfg` holds the parameters of R5 (entry 1) and `pending`
what the host has yet to issue, oldest first (R10, R40; entry 2). -/
structure State where
  /-- `B[0]`, alias `M` (R11). -/
  bufM : List Byte
  /-- `B[1]`, alias `S` (R11). -/
  bufS : List Byte
  /-- `B[2]`, alias `D` (R11). -/
  bufD : List Byte
  /-- `B[3]`, alias `P` (R11). -/
  bufP : List Byte
  /-- `O`, the output buffer (R12). -/
  out : List Byte
  /-- `OKIND` (R13). -/
  okind : OKind
  /-- `BP.G`, the groups of the bit accumulator (R14). -/
  bpG : List Group
  /-- `BP.TB`, the total bit count (R15). -/
  bpTB : Nat
  /-- `STATUS` (R18). -/
  status : BitVec 16
  /-- `DIAG`, the append-only trace, oldest event first (R21). -/
  diag : List DiagEvent
  /-- The parameters (R5). -/
  cfg : Config
  /-- What the host has yet to do, oldest first. -/
  pending : List HostInput
deriving DecidableEq, Repr

/-- Nothing stops the block: an error is a result code and "the block accepts the next command at once" (R121), and every
step is a total function (R10). So no fault has a name; safe (entry 21). -/
inductive Fault where
deriving DecidableEq, Repr

/-- Why the model gives no meaning. -/
inductive Refusal where
  /-- An arm of `exec` that has no meaning yet; no arm of this model answers it. Safe: nothing can be proved of the instruction. -/
  | notModelled (mnemonic : String)
deriving DecidableEq, Repr

/-- The state after reset (R28, R140) with the parameters `cfg`. The trace of a run starts empty at reset (R141). -/
def State.resetWith (cfg : Config) : State where
  bufM := []
  bufS := []
  bufD := []
  bufP := []
  out := []
  okind := .none
  bpG := []
  bpTB := 0
  status := 0x0000
  diag := []
  cfg := cfg
  pending := []

/-- The state after reset (R28), the parameters at their defaults (R5). -/
def State.reset : State := State.resetWith Config.default

end Sys2Proof.Machine
end

