-- ==== Sys2Proof/Machine/Flags.lean ====
section
/-! DEFINITION. The `STATUS` register: its layout (R18), the result codes (R122), its one flag (R20), and the tag of `OKIND`. -/

namespace Sys2Proof.Machine

/-- The errors of R122. `deviceUnavailable` and `transportWriteFailure` have numbers and are never raised by the block (R127). -/
inductive ErrorName where
  | invalidPayload
  | malformedHex
  | deviceUnavailable
  | transportWriteFailure
  | illegalCommand
  | capacityExceeded
deriving DecidableEq, Repr

/-- The code of a command that succeeds, `OK` (R122). -/
def okCode : BitVec 8 := 0x00

/-- The code of an error (R122). -/
def errorCode : ErrorName → BitVec 8
  | .invalidPayload => 0x01
  | .malformedHex => 0x02
  | .deviceUnavailable => 0x03
  | .transportWriteFailure => 0x04
  | .illegalCommand => 0x10
  | .capacityExceeded => 0x11

/-- The `STATUS` word with `CODE` in bits 7:0, `HBD` in bit 8 and bits 15:9 zero (R18). -/
def statusWord (code : BitVec 8) (hbd : Bool) : BitVec 16 :=
  (0 : BitVec 7) ++ (BitVec.ofBool hbd ++ code)

/-- `STATUS.CODE`, bits 7:0 (R18). -/
def State.code (s : State) : BitVec 8 := s.status.extractLsb' 0 8

/-- `STATUS.HBD`, bit 8 (R18, R20). -/
def State.hbd (s : State) : Bool := s.status.getLsbD 8

/-- The 3-bit tag the host reads for `OKIND` (R13). -/
def okindTag : OKind → BitVec 3
  | .none => 0
  | .groups => 1
  | .sum => 2
  | .frame => 3
  | .raw => 4

end Sys2Proof.Machine
end

