-- ==== Sys2Proof/Machine/Operands.lean ====
section
/-! DEFINITION. How the storage of the block is reached (20_memory.md): the input buffers by selector, the output buffer, the
accumulator, the trace, and the elements of the six storage spaces. -/

namespace Sys2Proof.Machine

/-- `B[b]` (R11). -/
def State.buf (s : State) : Buf → List Byte
  | .m => s.bufM
  | .s => s.bufS
  | .d => s.bufD
  | .p => s.bufP

/-- `B[b] <- bytes`; the other three input buffers stay. -/
def State.setBuf (s : State) (b : Buf) (bytes : List Byte) : State :=
  { s with
    bufM := if b = .m then bytes else s.bufM
    bufS := if b = .s then bytes else s.bufS
    bufD := if b = .d then bytes else s.bufD
    bufP := if b = .p then bytes else s.bufP }

/-- `O <- bytes; OKIND <- kind` (R12, R13): the output buffer is replaced whole (R32). -/
def State.setOut (s : State) (bytes : List Byte) (kind : OKind) : State :=
  { s with out := bytes, okind := kind }

/-- `BP.G <- groups; BP.TB <- total` (R14, R15). -/
def State.setBp (s : State) (groups : List Group) (total : Nat) : State :=
  { s with bpG := groups, bpTB := total }

/-- `STATUS <- word`: the whole register is overwritten (R18). -/
def State.setStatus (s : State) (word : BitVec 16) : State :=
  { s with status := word }

/-- `emit DIAG event` (R8, R21): the trace is only appended to. -/
def State.emit (s : State) (event : DiagEvent) : State :=
  { s with diag := s.diag ++ [event] }

/-- What the host has yet to issue becomes `inputs`. -/
def State.setPending (s : State) (inputs : List HostInput) : State :=
  { s with pending := inputs }

/-- The six storage spaces of R30. -/
inductive Space where
  | input (b : Buf)
  | output
  | groups
deriving DecidableEq, Repr

/-- Element `i` of a storage space as a number (R30, R31); `none` where the index does not exist. -/
def State.elem (s : State) : Space → Nat → Option Nat
  | .input b, i => (s.buf b)[i]?.map BitVec.toNat
  | .output, i => s.out[i]?.map BitVec.toNat
  | .groups, i => s.bpG[i]?.map BitVec.toNat

/-- `slice(s, i, j)` of R8. -/
def slice (bytes : List Byte) (i j : Nat) : List Byte := (bytes.drop i).take (j - i)

end Sys2Proof.Machine
end

