-- ==== Sys2Proof/Machine/Ops.lean ====
section
/-! DEFINITION. The shared operations: capacity tests (R126), a command's success, error entry (R130), and reset (R140). -/

namespace Sys2Proof.Machine

/-- What one step or one command answers. -/
abbrev Result := Host.Outcome State Fault Refusal

/-- `n` elements fit a capacity (R126); everything fits `inf`. -/
def fits : Cap → Nat → Bool
  | .inf, _ => true
  | .bounded c, n => decide (n ≤ c)

/-- A command that is not a producer succeeds: `STATUS.CODE <- OK; STATUS.HBD <- 0` (R19, R20), beside what it wrote. -/
def succeed (s : State) : State := s.setStatus (statusWord okCode false)

/-- A producer command succeeds with a result (R12, R13). -/
def produce (bytes : List Byte) (kind : OKind) (s : State) : State := succeed (s.setOut bytes kind)

/-- Whether a command writes `O` (R9, R130). -/
inductive CommandClass where
  /-- `BPSNAP`, `CKSUM`, `FBUILD`, `HEXPARSE`. -/
  | producer
  /-- Every other command, and an illegal word (R125). -/
  | plain
deriving DecidableEq, Repr

/-- ERROR ENTRY, the one operation of R130: the code is recorded and `HBD` cleared; a producer's result is emptied; nothing else
changes. There is no handler to enter and no return from one (R131). -/
def raiseError (who : CommandClass) (e : ErrorName) (s : State) : State :=
  match who with
  | .producer => (s.setOut [] .none).setStatus (statusWord (errorCode e) false)
  | .plain => s.setStatus (statusWord (errorCode e) false)

/-- A word that is no command (R49, R125): `STATUS <- 0x0010` and nothing else, whatever its `op` looks like. -/
def illegalWord (s : State) : Result := .next (raiseError .plain .illegalCommand s)

/-- Reset (R140 to R142): every piece of state has its reset value, the events emitted so far stay in the run's output, and the
parameters survive. What the host has yet to issue is the host's and stays. -/
def hostReset (s : State) : State :=
  { State.resetWith s.cfg with diag := s.diag, pending := s.pending }

end Sys2Proof.Machine
end

