-- ==== Sys2Proof/Machine/BitPacker.lean ====
section
/-! DEFINITION. The bit-packer (40_bitpacker.md): append, snapshot, the reference unpack, and `BPCLR`, `BPAPP`, `BPSNAP`. -/

namespace Sys2Proof.Machine

/-- `ceil(n / 7)`, the number of groups `n` bits take. -/
def groupsFor (n : Nat) : Nat := (n + (groupWidth - 1)) / groupWidth

/-- The loop of R66: the groups pushed while `rem` bits of `v` remain, the first on top of `g` from bit `used`. Each round
consumes at least one bit, so `fuel = rem` rounds are enough. -/
def packLoop : (fuel : Nat) → (g : Group) → (used v rem : Nat) → List Group
  | 0, _, _, _, _ => []
  | fuel + 1, g, used, v, rem =>
    if rem = 0 then []
    else
      (g ||| BitVec.ofNat groupWidth (v <<< used))
        :: packLoop fuel 0 0 (v >>> (groupWidth - used)) (rem - min rem (groupWidth - used))

/-- `bp_append` (R65, R66): the value is truncated to its width first, a width of 0 changes nothing (R73), and a partly used last
group is popped and filled on. -/
def bpAppend (groups : List Group) (total value width : Nat) : List Group × Nat :=
  if width = 0 then (groups, total)
  else
    let v := value % 2 ^ width
    let used := total % groupWidth
    if used = 0 then (groups ++ packLoop width 0 0 v width, total + width)
    else
      let g := groups.getLast?.getD (Config.missingGroup total)
      (groups.dropLast ++ packLoop width g used v width, total + width)

/-- `bp_snapshot` (R68): the groups, right-padded with zero groups to at least `minGroups`. -/
def bpSnapshot (groups : List Group) (minGroups : Nat) : List Group :=
  groups ++ List.replicate (minGroups - groups.length) 0

/-- A group as one byte, bit 7 = 0 (R31, R56). -/
def groupByte (g : Group) : Byte := g.setWidth 8

/-- `bit(i)` of the accumulator's bit string (R17): bit `i mod 7` of group `i / 7`. DESIGN CHOICE (log entry 22): past the last
group, where the spec gives no bit, it is a free value. -/
def bpBit (groups : List Group) (i : Nat) : Bool :=
  match groups[i / groupWidth]? with
  | some g => g.getLsbD (i % groupWidth)
  | none => Config.bitBeyondGroups groups i

/-- `bits(G, TB)`: the bit string the accumulator stands for (R17, R67). -/
def bpBits (groups : List Group) (total : Nat) : List Bool :=
  (List.range total).map (bpBit groups)

/-- The field of `width` bits from position `pos` of the bit string (R75). -/
def bpField (groups : List Group) (pos width : Nat) : Nat :=
  ((List.range width).map fun i => if bpBit groups (pos + i) then 2 ^ i else 0).sum

/-- The loop of `bp_unpack` from position `pos` (R75). -/
def bpUnpackFrom (groups : List Group) : Nat → List Nat → List Nat
  | _, [] => []
  | pos, w :: ws => bpField groups pos w :: bpUnpackFrom groups (pos + w) ws

/-- `bp_unpack` (R75), the reference function; not a command. Widths that sum past the last group give values with free bits and
no error (R153; log entry 22). -/
def bpUnpack (groups : List Group) (widths : List Nat) : List Nat := bpUnpackFrom groups 0 widths

/-- `BPCLR` (R69). -/
def execBpclr (s : State) : Result := .next (succeed (s.setBp [] 0))

/-- `BPAPP w, v` (R70). -/
def execBpapp (w v : Nat) (s : State) : Result :=
  if fits s.cfg.bpCap (groupsFor (s.bpTB + w)) then
    .next (succeed (s.setBp (bpAppend s.bpG s.bpTB v w).1 (bpAppend s.bpG s.bpTB v w).2))
  else .next (raiseError .plain .capacityExceeded s)

/-- `BPSNAP n` (R71). -/
def execBpsnap (n : Nat) (s : State) : Result :=
  if fits s.cfg.bufCap (max s.bpG.length n) then
    .next (produce ((bpSnapshot s.bpG n).map groupByte) .groups s)
  else .next (raiseError .producer .capacityExceeded s)

end Sys2Proof.Machine
end

