-- ==== Sys2Proof/Machine/Buffer.lean ====
section
/-! DEFINITION. The buffer commands (45_buffer_commands.md): `BUFCLR`, `BUFPUSH`, `BUFCAT`. -/

namespace Sys2Proof.Machine

/-- `B[b] <- B[b] ++ bytes` where it fits, `CapacityExceeded` with nothing stored where it does not (R114, R115, U16). -/
def appendBuf (b : Buf) (bytes : List Byte) (s : State) : Result :=
  if fits s.cfg.bufCap ((s.buf b).length + bytes.length) then
    .next (succeed (s.setBuf b (s.buf b ++ bytes)))
  else .next (raiseError .plain .capacityExceeded s)

/-- `BUFCLR b` (R113). -/
def execBufclr (b : Buf) (s : State) : Result := .next (succeed (s.setBuf b []))

/-- `BUFPUSH b, x` (R114). -/
def execBufpush (b : Buf) (x : Byte) (s : State) : Result := appendBuf b [x] s

/-- `BUFCAT b` (R115). -/
def execBufcat (b : Buf) (s : State) : Result := appendBuf b s.out s

end Sys2Proof.Machine
end

