-- ==== Sys2Proof/Machine/Checksum.lean ====
section
/-! DEFINITION. The checksum engine (41_checksum.md): the function, the 8-bit engine of R84, and `CKSUM`. -/

namespace Sys2Proof.Machine

/-- One round of the recurrence of R80: `(acc * 3 + b) mod 256`. -/
def ckFold (acc : Nat) (b : Byte) : Nat := (acc * ckMult + b.toNat) % ckMod

/-- `checksum(payload)` (R80) as a number in 0 to 127; the seed is the length, not reduced. -/
def checksum (payload : List Byte) : Nat := payload.foldl ckFold payload.length % ckOutMod

/-- The checksum as the one byte a frame or `O` holds, bit 7 = 0. -/
def checksumByte (payload : List Byte) : Byte := BitVec.ofNat 8 (checksum payload)

/-- One round of the hardware engine (R84): `ACC <- (ACC + (ACC << 1) + b)[7:0]`. -/
def ckRound (acc : BitVec 8) (b : Byte) : BitVec 8 := acc + (acc <<< 1) + b

/-- The engine of R81 and R84: an 8-bit accumulator loaded with the low 8 bits of the length; the result is `ACC[6:0]`. -/
def checksumEngine (payload : List Byte) : BitVec 7 :=
  (payload.foldl ckRound (BitVec.ofNat 8 payload.length)).extractLsb' 0 7

/-- `CKSUM b` (R82). -/
def execCksum (b : Buf) (s : State) : Result :=
  if fits s.cfg.bufCap 1 then .next (produce [checksumByte (s.buf b)] .sum s)
  else .next (raiseError .producer .capacityExceeded s)

end Sys2Proof.Machine
end

