-- ==== Sys2Proof/Machine/Hex.lean ====
section
/-! DEFINITION. Hex text (44_hex.md, R58, R60): the grammar, the parser, the dump, and `HEXPARSE`. Characters are ASCII codes
(R104, K2; log entry 9). -/

namespace Sys2Proof.Machine

/-- The six whitespace characters of R104. -/
def isWhitespace (c : Byte) : Bool :=
  c == 0x20 || c == 0x09 || c == 0x0A || c == 0x0B || c == 0x0C || c == 0x0D

/-- The value of a hex digit (R105); `a` to `f` count only when `HEX_LOWER` holds. -/
def hexDigit (lower : Bool) (c : Byte) : Option Nat :=
  let n := c.toNat
  if 0x30 ≤ n ∧ n ≤ 0x39 then some (n - 0x30)
  else if 0x41 ≤ n ∧ n ≤ 0x46 then some (n - 0x41 + 10)
  else if lower = true ∧ 0x61 ≤ n ∧ n ≤ 0x66 then some (n - 0x61 + 10)
  else none

/-- The token read so far, when there is one. -/
def flushToken (token : List Byte) : List (List Byte) := if token.isEmpty then [] else [token]

/-- The tokens of a text after the characters `token` of the current run. -/
def tokensFrom (token : List Byte) : List Byte → List (List Byte)
  | [] => flushToken token
  | c :: cs =>
    if isWhitespace c then flushToken token ++ tokensFrom [] cs else tokensFrom (token ++ [c]) cs

/-- The tokens of a text (R104): the longest runs of characters that are not whitespace. -/
def tokens (text : List Byte) : List (List Byte) := tokensFrom [] text

/-- The value of a hex byte token (R105): one or two hex digits; `none` for every other token. -/
def tokenValue (lower : Bool) : List Byte → Option Byte
  | [c] => (hexDigit lower c).map (BitVec.ofNat 8)
  | [c, c'] =>
    match hexDigit lower c, hexDigit lower c' with
    | some hi, some lo => some (BitVec.ofNat 8 (16 * hi + lo))
    | _, _ => none
  | _ => none

/-- The values of tokens in order, `none` when one is not a hex byte token (R106). -/
def tokenValues (lower : Bool) : List (List Byte) → Option (List Byte)
  | [] => some []
  | t :: ts =>
    match tokenValue lower t, tokenValues lower ts with
    | some v, some vs => some (v :: vs)
    | _, _ => none

/-- `parse_hex` (R106). -/
def parseHex (lower : Bool) (text : List Byte) : Except ErrorName (List Byte) :=
  match tokenValues lower (tokens text) with
  | some bytes => .ok bytes
  | none => .error .malformedHex

/-- The upper-case hex digit of a value below 16 (R60). -/
def hexChar (n : Nat) : Byte := if n < 10 then BitVec.ofNat 8 (0x30 + n) else BitVec.ofNat 8 (0x41 + (n - 10))

/-- A byte as two upper-case hex digits (R60). -/
def dumpByte (b : Byte) : List Byte := [hexChar (b.toNat / 16), hexChar (b.toNat % 16)]

/-- `hexdump` (R60): two digits a byte, one space between bytes, nothing else. -/
def hexdump : List Byte → List Byte
  | [] => []
  | [b] => dumpByte b
  | b :: b' :: bs => dumpByte b ++ 0x20 :: hexdump (b' :: bs)

/-- `HEXPARSE b` (R107). The result is never longer than the text, so no capacity is tested (R126; log entry 17). -/
def execHexparse (b : Buf) (s : State) : Result :=
  match parseHex s.cfg.hexLower (s.buf b) with
  | .error e => .next (raiseError .producer e s)
  | .ok bytes => .next (produce bytes .raw s)

end Sys2Proof.Machine
end

