-- ==== Sys2Proof/Machine/Frame.lean ====
section
/-! DEFINITION. The frame unit (42_frame_build.md, 43_frame_parse.md): `FBUILD` and `FPARSE`. -/

namespace Sys2Proof.Machine

/-- Every byte is at most 0x7F, the 7-bit test of R89. -/
def clean7 (bytes : List Byte) : Bool := bytes.all fun x => decide (x.toNat ≤ byteMax7)

/-- `build_frame` (R88): the 7-bit test over all four operands first, then their concatenation with the payload's checksum. -/
def buildFrame (m s d p : List Byte) : Except ErrorName (List Byte) :=
  if clean7 (m ++ s ++ d ++ p) then .ok (m ++ s ++ d ++ p ++ [checksumByte p]) else .error .invalidPayload

/-- The result of `parse_frame` (R96 to R98). -/
inductive Parsed where
  | discard
  | log (entry : LogEntry)
deriving DecidableEq, Repr

/-- The fields of a sequence long enough to split, with the id lengths of the parameters (R97). -/
def decodeFields (cfg : Config) (raw : List Byte) : LogEntry :=
  let h := cfg.mfrLen + cfg.subLen + cfg.devLen
  let payload := slice raw h (raw.length - 1)
  let cksum := raw.getD (raw.length - 1) 0
  .fields (slice raw 0 cfg.mfrLen) (slice raw cfg.mfrLen (cfg.mfrLen + cfg.subLen))
    (slice raw (cfg.mfrLen + cfg.subLen) h) payload cksum (decide (checksum payload = cksum.toNat))

/-- `parse_frame` (R96 to R98): the heartbeat is recognised by equality of the whole sequence; everything else gives an entry. -/
def parseFrame (cfg : Config) (raw : List Byte) : Parsed :=
  if raw = heartbeat then .discard
  else if cfg.mfrLen + cfg.subLen + cfg.devLen + 1 ≤ raw.length then .log (decodeFields cfg raw)
  else .log (.short raw)

/-- `FBUILD` (R90): `InvalidPayload` is tested before the capacity (R128); the dump is emitted on success only (R91). -/
def execFbuild (s : State) : Result :=
  match buildFrame s.bufM s.bufS s.bufD s.bufP with
  | .error e => .next (raiseError .producer e s)
  | .ok frame =>
    if fits s.cfg.bufCap frame.length then .next (produce frame .frame (s.emit (.frameDump (hexdump frame))))
    else .next (raiseError .producer .capacityExceeded s)

/-- `FPARSE b` (R99): the only command that can set `HBD` (R20). -/
def execFparse (b : Buf) (s : State) : Result :=
  match parseFrame s.cfg (s.buf b) with
  | .discard => .next (s.setStatus (statusWord okCode true))
  | .log entry => .next (succeed (s.emit (.decoded entry)))

end Sys2Proof.Machine
end

