-- ==== Sys2Proof/Machine/Dispatch.lean ====
section
/-! DEFINITION. One arm per command (R47), each one call of its meaning. -/

namespace Sys2Proof.Machine

def exec (i : Instr) (s : State) : Host.Outcome State Fault Refusal :=
  match i with
  | .bpclr => Sys2Proof.Machine.execBpclr s
  | .bpapp w v => Sys2Proof.Machine.execBpapp w v s
  | .bpsnap n => Sys2Proof.Machine.execBpsnap n s
  | .cksum b => Sys2Proof.Machine.execCksum b s
  | .fbuild => Sys2Proof.Machine.execFbuild s
  | .fparse b => Sys2Proof.Machine.execFparse b s
  | .hexparse b => Sys2Proof.Machine.execHexparse b s
  | .bufclr b => Sys2Proof.Machine.execBufclr b s
  | .bufpush b x => Sys2Proof.Machine.execBufpush b x s
  | .bufcat b => Sys2Proof.Machine.execBufcat b s

end Sys2Proof.Machine
end

