-- ==== Sys2Proof/Machine/HostPort.lean ====
section
/-! DEFINITION. The host's side of the block (R27): issuing a word, asserting reset, the reads, and what one input does. -/

namespace Sys2Proof.Machine

/-- What one command word does (R10): its command, or the error of an illegal word (R125), decided from the word alone (R128). -/
def runWord (w : Word) (s : State) : Result :=
  match decode w with
  | .ok i => exec i s
  | .error _ => illegalWord s

/-- What one input of the host does (R10, R140). -/
def runInput (input : HostInput) (s : State) : Result :=
  match input with
  | .command w => runWord w s
  | .reset => .next (hostReset s)

/-- One step: the block takes the oldest input; with nothing pending it is idle with all its state kept (R10, R139, R140). -/
def takeInput (s : State) : Result :=
  match s.pending with
  | [] => .next s
  | input :: rest => runInput input (s.setPending rest)

/-- The host issues a command word after those it has issued already (R27 (a), R40). -/
def State.issue (s : State) (w : Word) : State := s.setPending (s.pending ++ [.command w])

/-- The host asserts reset after what it has issued already (R27 (d), R140). -/
def State.assertReset (s : State) : State := s.setPending (s.pending ++ [.reset])

/-- The response to a command (R27): the triple (`STATUS`, `OKIND`, `O`) as the host reads it. A read changes nothing (R38). -/
def State.response (s : State) : BitVec 16 × BitVec 3 × List Byte := (s.status, okindTag s.okind, s.out)

/-- The same state with the word issued as the block's next input. -/
def State.issueNext (s : State) (w : Word) : State := s.setPending (.command w :: s.pending)

/-- The state a run starts from (R28, R141, R142): reset with the parameters `cfg`, and the host's list of inputs. -/
def State.start (cfg : Config) (inputs : List HostInput) : State := (State.resetWith cfg).setPending inputs

end Sys2Proof.Machine
end

