-- ==== Sys2Proof/Machine/Step.lean ====
section
/-! DEFINITION. The step of the machine, and where the host's next command word is placed. -/

namespace Sys2Proof.Machine

/-- One step of the block (R10). -/
def step (s : State) : Host.Outcome State Fault Refusal := takeInput s

/-- The state whose next step takes the command word with number `w`: the host issues it next (log entry 3). -/
def State.withFetchWord (s : State) (nbits w : Nat) : State := s.issueNext (tableWord nbits w)

end Sys2Proof.Machine
end

