-- ==== Sys2Proof/Machine/Assembler.lean ====
section
/-! DEFINITION. The host-side tools the spec defines beside the block: the pseudo-instructions (R53) and the assembler syntax
(R52). No step uses them. -/

namespace Sys2Proof.Machine

/-- The pseudo-instructions of R53. A text is the sequence of its characters' ASCII codes (R104). -/
inductive Pseudo where
  /-- `BPSNAP` without operand. -/
  | bpsnapDefault
  /-- `BUFSET b, x0 x1 ... xk`. -/
  | bufset (b : Buf) (bytes : List Byte)
  /-- `BUFTEXT b, "c0c1...ck"`. -/
  | buftext (b : Buf) (codes : List Byte)
  /-- `BPAPPW w, v`. -/
  | bpappw (w v : Nat)
deriving DecidableEq, Repr

/-- The expansion of `BPAPPW w, v` (R53): pieces of 16 bits, low piece first (R35), while more than 16 bits remain. Each piece
takes 16 of the width, so `fuel = w` pieces are enough. -/
def expandBpappw : (fuel : Nat) → (w v : Nat) → List Instr
  | 0, w, v => [.bpapp w (v % 2 ^ 16)]
  | fuel + 1, w, v =>
    if 16 < w then .bpapp 16 (v % 2 ^ 16) :: expandBpappw fuel (w - 16) (v >>> 16) else [.bpapp w (v % 2 ^ 16)]

/-- The commands a pseudo-instruction stands for, in order (R53). -/
def expand : Pseudo → List Instr
  | .bpsnapDefault => [.bpsnap defaultMinGroups]
  | .bufset b bytes => .bufclr b :: bytes.map (.bufpush b)
  | .buftext b codes => .bufclr b :: codes.map (.bufpush b)
  | .bpappw w v => expandBpappw w w v

/-- A blank of the source text. -/
def isBlank (c : Char) : Bool := c == ' ' || c == '\t'

/-- A line without its comment (R52). A `;` between the quotes of a text is a character of the text (log entry 13). -/
def stripComment (quoted : Bool) : List Char → List Char
  | [] => []
  | c :: cs =>
    if c = ';' ∧ quoted = false then []
    else if c = '"' then c :: stripComment (!quoted) cs
    else c :: stripComment quoted cs

/-- A text without the blanks at its two ends. -/
def trimBlanks (t : List Char) : List Char :=
  ((t.dropWhile isBlank).reverse.dropWhile isBlank).reverse

/-- The fields of a text between separators. -/
def splitAtSep (isSep : Char → Bool) (field : List Char) : List Char → List (List Char)
  | [] => [field]
  | c :: cs => if isSep c then field :: splitAtSep isSep [] cs else splitAtSep isSep (field ++ [c]) cs

/-- A digit's value in a base of at most 16. -/
def digitValue (base : Nat) (c : Char) : Option Nat :=
  let n := c.toNat
  let v :=
    if 0x30 ≤ n ∧ n ≤ 0x39 then n - 0x30
    else if 0x41 ≤ n ∧ n ≤ 0x46 then n - 0x41 + 10
    else if 0x61 ≤ n ∧ n ≤ 0x66 then n - 0x61 + 10
    else base
  if v < base then some v else none

/-- Digits read from the left on top of `acc`. -/
def digitsFrom (base acc : Nat) : List Char → Option Nat
  | [] => some acc
  | c :: cs =>
    match digitValue base c with
    | some v => digitsFrom base (acc * base + v) cs
    | none => none

/-- A number (R52): decimal, or hexadecimal with `0x`. -/
def parseNumber : List Char → Option Nat
  | [] => none
  | ['0', 'x'] => none
  | '0' :: 'x' :: digits => digitsFrom 16 0 digits
  | digits => digitsFrom 10 0 digits

/-- A byte: a number up to 255. -/
def parseByte (t : List Char) : Option Byte :=
  match parseNumber t with
  | some n => if n < 256 then some (BitVec.ofNat 8 n) else none
  | none => none

/-- A buffer operand (R52): one of `M`, `S`, `D`, `P`, or equally `B0`, `B1`, `B2`, `B3`. -/
def parseBuf (t : List Char) : Option Buf :=
  if t = ['M'] ∨ t = ['B', '0'] then some .m
  else if t = ['S'] ∨ t = ['B', '1'] then some .s
  else if t = ['D'] ∨ t = ['B', '2'] then some .d
  else if t = ['P'] ∨ t = ['B', '3'] then some .p
  else none

/-- The codes of a quoted text up to its closing quote. The two-character escapes for tab, line feed and carriage return
are those of the spec's own program lines (95_test_vectors.md, program 3; log entry 13). -/
def quotedCodes : List Char → Option (List Byte)
  | [] => none
  | ['"'] => some []
  | '"' :: _ :: _ => none
  | '\\' :: 't' :: cs => (quotedCodes cs).map (0x09 :: ·)
  | '\\' :: 'n' :: cs => (quotedCodes cs).map (0x0A :: ·)
  | '\\' :: 'r' :: cs => (quotedCodes cs).map (0x0D :: ·)
  | c :: cs => if c.toNat < 128 then (quotedCodes cs).map (BitVec.ofNat 8 c.toNat :: ·) else none

/-- A text operand of `BUFTEXT`, opening quote included. -/
def parseQuoted : List Char → Option (List Byte)
  | '"' :: cs => quotedCodes cs
  | _ => none

/-- A command whose operands fit the command word, refused otherwise ("an out-of-range field is refused", R49). -/
def checked (i : Instr) : Option (List Instr) := if i.wellFormed then some [i] else none

/-- A command with one buffer operand. -/
def asmOneBuf (mk : Buf → Instr) (operands : List (List Char)) : Option (List Instr) :=
  match operands with
  | [b] => (parseBuf b).map fun buf => [mk buf]
  | _ => none

/-- The byte list of `BUFSET`, its numbers separated by blanks. -/
def parseBytes (t : List Char) : Option (List Byte) :=
  ((splitAtSep isBlank [] t).filter (!·.isEmpty)).mapM parseByte

/-- The commands of one line with the given mnemonic and operands (R52, R53). The operands of `BUFTEXT` are read from `rest`,
since its text may hold commas. -/
def asmOperands (mnemonic rest : List Char) (operands : List (List Char)) : Option (List Instr) :=
  if mnemonic = "BPCLR".toList then (if operands = [] then some [.bpclr] else none)
  else if mnemonic = "FBUILD".toList then (if operands = [] then some [.fbuild] else none)
  else if mnemonic = "CKSUM".toList then asmOneBuf .cksum operands
  else if mnemonic = "FPARSE".toList then asmOneBuf .fparse operands
  else if mnemonic = "HEXPARSE".toList then asmOneBuf .hexparse operands
  else if mnemonic = "BUFCLR".toList then asmOneBuf .bufclr operands
  else if mnemonic = "BUFCAT".toList then asmOneBuf .bufcat operands
  else if mnemonic = "BPAPP".toList then
    match operands with
    | [w, v] => do checked (.bpapp (← parseNumber w) (← parseNumber v))
    | _ => none
  else if mnemonic = "BPAPPW".toList then
    match operands with
    | [w, v] => do some (expand (.bpappw (← parseNumber w) (← parseNumber v)))
    | _ => none
  else if mnemonic = "BPSNAP".toList then
    match operands with
    | [] => some (expand .bpsnapDefault)
    | [n] => do checked (.bpsnap (← parseNumber n))
    | _ => none
  else if mnemonic = "BUFPUSH".toList then
    match operands with
    | [b, x] => do some [.bufpush (← parseBuf b) (← parseByte x)]
    | _ => none
  else if mnemonic = "BUFSET".toList then
    match operands with
    | [b] => do some (expand (.bufset (← parseBuf b) []))
    | [b, bytes] => do some (expand (.bufset (← parseBuf b) (← parseBytes bytes)))
    | _ => none
  else if mnemonic = "BUFTEXT".toList then do
    let b := rest.takeWhile (· ≠ ',')
    let text := trimBlanks (rest.drop (b.length + 1))
    some (expand (.buftext (← parseBuf (trimBlanks b)) (← parseQuoted text)))
  else none

/-- The commands of one line of assembler (R52): none where the line holds only blanks or a comment; `none` where it is not
a line of the syntax. -/
def assembleLine (line : List Char) : Option (List Instr) :=
  let t := trimBlanks (stripComment false line)
  if t = [] then some []
  else
    let mnemonic := t.takeWhile fun c => !isBlank c
    let rest := trimBlanks (t.drop mnemonic.length)
    asmOperands mnemonic rest (if rest = [] then [] else (splitAtSep (· == ',') [] rest).map trimBlanks)

/-- The command words of a line. -/
def assembleWords (line : List Char) : Option (List Word) := (assembleLine line).map (List.map encode)

end Sys2Proof.Machine
end

