-- ==== Sys2Proof/Safety.lean ====
section
/-! DEFINITION. What the claims speak of: the invariants of reachable states, the class of a command, frames, and runs. -/

namespace Sys2Proof.Machine

/-- The invariant of the accumulator (R16): (a) `BP.N = ceil(BP.TB / 7)`; (c) the bits of the last group not yet used are zero.
(b), every group is at most 127, holds by the type of a group. -/
abbrev BpInv (groups : List Group) (total : Nat) : Prop :=
  groups.length = (total + 6) / 7 ∧ (total % 7 ≠ 0 → (groups.getLastD 0).toNat < 2 ^ (total % 7))

/-- What `STATUS` can hold (R18, R122, R127): bits 15:9 zero, `CODE` one of the five codes the block raises, and `HBD` set only
beside `OK` (R129). -/
abbrev StatusInv (s : State) : Prop :=
  s.status.extractLsb' 9 7 = 0 ∧ s.code ∈ ([0x00, 0x01, 0x02, 0x10, 0x11] : List (BitVec 8)) ∧ (s.hbd = true → s.code = 0x00)

/-- What `O` can hold beside each `OKIND` (the table of R13). -/
abbrev OutInv (s : State) : Prop :=
  (s.okind = .none → s.out = []) ∧ (s.okind = .sum → s.out.length = 1)
    ∧ (s.okind ≠ .raw → ∀ x ∈ s.out, x.toNat ≤ 0x7F)

/-- `n` elements are within a capacity (R5). -/
def Within (c : Cap) (n : Nat) : Prop := ∀ k, c = .bounded k → n ≤ k

/-- No storage space is longer than its capacity (R11, R12, R14). -/
def CapInv (s : State) : Prop :=
  (∀ b, Within s.cfg.bufCap (s.buf b).length) ∧ Within s.cfg.bufCap s.out.length ∧ Within s.cfg.bpCap s.bpG.length

/-- The invariant of every reachable state. -/
def State.Inv (s : State) : Prop := BpInv s.bpG s.bpTB ∧ StatusInv s ∧ OutInv s ∧ CapInv s

/-- The producer commands (R9, R130): those that write `O`. -/
def Instr.isProducer : Instr → Bool
  | .bpclr => false
  | .bpapp _ _ => false
  | .bpsnap _ => true
  | .cksum _ => true
  | .fbuild => true
  | .fparse _ => false
  | .hexparse _ => true
  | .bufclr _ => false
  | .bufpush _ _ => false
  | .bufcat _ => false

/-- A word is a producer command; an illegal word is none, whatever its `op` field looks like (R125). -/
def producerWord (w : Word) : Bool :=
  match decode w with
  | .ok i => Instr.isProducer i
  | .error _ => false

/-- Everything but the input buffers and `STATUS` is the same: `O`, `OKIND`, the accumulator, the trace, the parameters and
the host's inputs. -/
def SameBesideInputs (s t : State) : Prop :=
  t.out = s.out ∧ t.okind = s.okind ∧ t.bpG = s.bpG ∧ t.bpTB = s.bpTB ∧ t.diag = s.diag ∧ t.cfg = s.cfg ∧ t.pending = s.pending

/-- The same state with other buffers: all that the bit-packer's `BPCLR` and `BPAPP` share nothing with (R26). -/
def State.setBuffers (s : State) (m s' d p o : List Byte) (k : OKind) : State :=
  { s with bufM := m, bufS := s', bufD := d, bufP := p, out := o, okind := k }

/-- Commands one after the other, each on the state the one before left (R40). -/
def execAll : List Instr → State → Result
  | [], s => .next s
  | i :: is, s =>
    match exec i s with
    | .next t => execAll is t
    | .fault r => .fault r
    | .refused r => .refused r

/-- The inputs of the host one after the other (R40, R43). -/
def runInputs : List HostInput → State → Result
  | [], s => .next s
  | input :: inputs, s =>
    match runInput input s with
    | .next t => runInputs inputs t
    | .fault r => .fault r
    | .refused r => .refused r

/-- The accumulator after the appends `(value, width)`, in order, from an empty one. -/
def packed (fields : List (Nat × Nat)) : List Group × Nat :=
  fields.foldl (fun acc f => bpAppend acc.1 acc.2 f.1 f.2) ([], 0)

/-- The low `width` bits of a value, least significant first (R17, R33). -/
def valueBits (value width : Nat) : List Bool := (List.range width).map value.testBit

/-- A step is safe: it answers a next state, and the invariant holds there. -/
def SafeStep (s : State) : Prop := ∃ t, step s = .next t ∧ t.Inv

end Sys2Proof.Machine
end

