-- ==== Sys2Proof/Certificates/Slice0/Obligations.lean ====
section
/-! DEFINITION. The statements for the provers. Each docstring names the rules of spec/ it formalises, or says what it rests on. -/

open Sys2Proof Sys2Proof.Machine

/-! ### Encoding -/

/-- R45 to R47: the decoder reads back every well-formed command from its word, with every operand. -/
def Obligations.DecodeOfEncodeIsTheCommand : Prop :=
  ∀ i : Instr, i.wellFormed = true → decode (encode i) = .ok i

/-- R45 to R48: a word that decodes has exactly one spelling, and what it decodes to is well-formed. -/
def Obligations.EncodeOfDecodeIsTheWord : Prop :=
  ∀ (w : Word) (i : Instr), decode w = .ok i → encode i = w ∧ i.wellFormed = true

/-- R49: every word matches exactly one row of the map and is that row's command, or matches none, is illegal, and then changes
`STATUS` to `IllegalCommand` and nothing else. -/
def Obligations.EveryWordIsOneCommandOrIllegal : Prop :=
  ∀ w : Word,
    (∃ r ∈ opcodeMap, r.admits w = true ∧ (∀ r' ∈ opcodeMap, r'.admits w = true → r' = r)
        ∧ ∃ i, decode w = .ok i ∧ i.mnemonic = r.mnemonic)
      ∨ ((∀ r ∈ opcodeMap, r.admits w = false) ∧ (∃ e, decode w = .error e)
        ∧ ∀ s : State, runWord w s = .next { s with status := 0x0010 })

/-- Words written out from the table of R47, one for each command, decode to the commands they stand for; the selectors are the
numbers of R11. -/
def Obligations.SampleWordsDecode : Prop :=
  decode 0x10000000 = .ok .bpclr ∧ decode 0x110901FF = .ok (.bpapp 9 0x1FF) ∧ decode 0x12000008 = .ok (.bpsnap 8)
    ∧ decode 0x20030000 = .ok (.cksum .p) ∧ decode 0x30000000 = .ok .fbuild ∧ decode 0x31030000 = .ok (.fparse .p)
    ∧ decode 0x40020000 = .ok (.hexparse .d) ∧ decode 0x50010000 = .ok (.bufclr .s)
    ∧ decode 0x51000021 = .ok (.bufpush .m 0x21) ∧ decode 0x52030000 = .ok (.bufcat .p)

/-! ### The step -/

/-- R10: when the next input of the host is a word that decodes to a command, the step is that command on the same state with
the word taken from the host's inputs; nothing else is added around it. That the inputs are a list of the state is the model's
form (log entry 2). -/
def Obligations.StepRunsTheDecodedCommand : Prop :=
  ∀ (s : State) (w : Word) (rest : List HostInput) (i : Instr),
    s.pending = .command w :: rest → decode w = .ok i → step s = exec i { s with pending := rest }

/-- R125: a word that matches no row sets `STATUS` to 0x0010 and changes nothing else of the block. -/
def Obligations.IllegalWordsChangeOnlyStatus : Prop :=
  ∀ (s : State) (w : Word) (rest : List HostInput),
    s.pending = .command w :: rest → (∀ r ∈ opcodeMap, r.admits w = false) →
      step s = .next { s with pending := rest, status := 0x0010 }

/-- THE MODEL'S CHOICE (log entry 4), from the sentence of R10 "The block does nothing between commands": with no input
pending a step changes nothing. -/
def Obligations.StepIdlesWithNothingPending : Prop :=
  ∀ s : State, s.pending = [] → step s = .next s

/-- THE MODEL'S FORM of what the host does in R27 (a) and (d): with nothing pending, the word the host issues is what the next
step executes, and a reset it asserts takes effect in a step of its own. That the inputs are a list of the state is log entry 2,
that a reset is an input taken by a step is log entry 5. -/
def Obligations.IssuedInputIsTakenNext : Prop :=
  ∀ (s : State) (w : Word), s.pending = [] → step (s.issue w) = runWord w s ∧ step s.assertReset = .next (hostReset s)

/-- Reset as an input between commands (THE MODEL'S FORM of it: log entry 5): the block's state has the values of R28, the
events emitted so far and the parameters stay (R141, R142). -/
def Obligations.ResetInputClearsTheBlock : Prop :=
  ∀ (s : State) (rest : List HostInput), s.pending = .reset :: rest →
    step s = .next { bufM := [], bufS := [], bufD := [], bufP := [], out := [], okind := .none, bpG := [], bpTB := 0,
                     status := 0x0000, diag := s.diag, cfg := s.cfg, pending := rest }

/-- R28: what every piece of the block's state holds after reset, with any parameters. -/
def Obligations.ResetValues : Prop :=
  ∀ cfg : Config, let s := State.resetWith cfg
    (∀ b, s.buf b = []) ∧ s.out = [] ∧ s.okind = .none ∧ okindTag s.okind = 0 ∧ s.bpG = [] ∧ s.bpTB = 0
      ∧ s.status = 0x0000 ∧ s.code = okCode ∧ s.hbd = false ∧ s.diag = [] ∧ s.response = (0x0000, 0, [])
      ∧ State.reset = State.resetWith Config.default

/-- From R10 (a step is total), R24 (the host's index moves on by one) and R142 (the parameters stay), in THE MODEL'S FORM: that a
step with nothing pending answers a next state is the model's choice (log entry 4), that a reset takes a step is log entry 5,
that the inputs are a list of the state is log entry 2. -/
def Obligations.EveryStepTakesOneInput : Prop :=
  ∀ s : State, ∃ t, step s = .next t ∧ t.pending = s.pending.tail ∧ t.cfg = s.cfg

/-- R40: running the machine on the host's inputs is their effects one at a time, in the order of issue; the inputs behind them
play no part. The list of inputs (log entry 2) and a reset as one of them (log entry 5) are the model's form. -/
def Obligations.RunTakesInputsInOrder : Prop :=
  ∀ (inputs rest : List HostInput) (s : State), ∃ t,
    runInputs inputs (s.setPending rest) = .next t
      ∧ Host.Core.run Sys2Proof.core inputs.length (s.setPending (inputs ++ rest)) = .next t

/-! ### The bit-packer -/

/-- R69: the encoding of `BPCLR`, and its whole effect. -/
def Obligations.BpclrEmptiesTheAccumulator : Prop :=
  encode .bpclr = 0x10000000
    ∧ ∀ s : State, exec .bpclr s = .next { s with bpG := [], bpTB := 0, status := 0x0000 }

/-- R70: the encoding of `BPAPP`; where the groups fit, the append of R66 and success; where they do not, `CapacityExceeded` and
nothing else written. -/
def Obligations.BpappAppendsOrRefuses : Prop :=
  (∀ w v : Nat, w < 256 → v < 65536 → encode (.bpapp w v) = 0x11000000 ||| BitVec.ofNat 32 (w <<< 16) ||| BitVec.ofNat 32 v)
    ∧ ∀ (s : State) (w v : Nat),
      (Within s.cfg.bpCap ((s.bpTB + w + 6) / 7) →
          exec (.bpapp w v) s
            = .next { s with bpG := (bpAppend s.bpG s.bpTB v w).1, bpTB := (bpAppend s.bpG s.bpTB v w).2, status := 0x0000 })
        ∧ (∀ c, s.cfg.bpCap = .bounded c → c < (s.bpTB + w + 6) / 7 →
          exec (.bpapp w v) s = .next { s with status := 0x0011 })

/-- The effect of `BPAPP` on the bit string (the spec's own derivation of R67 from R66, 40_bitpacker.md): the `w` low bits of the
value are added at the end, least significant first; the rest of the state is as R70 says. -/
def Obligations.BpappAddsTheValueBits : Prop :=
  ∀ (s : State) (w v : Nat), BpInv s.bpG s.bpTB → Within s.cfg.bpCap ((s.bpTB + w + 6) / 7) →
    ∃ groups, exec (.bpapp w v) s = .next { s with bpG := groups, bpTB := s.bpTB + w, status := 0x0000 }
      ∧ bpBits groups (s.bpTB + w) = bpBits s.bpG s.bpTB ++ valueBits v w ∧ BpInv groups (s.bpTB + w)

/-- The closed form of append (marked "derived: from rule R66" by the spec): the bit string grows by the value's bits, every
group is seven bits of it with zeros beyond its end, and the full groups of before are unchanged. -/
def Obligations.AppendHasItsClosedForm : Prop :=
  ∀ (groups : List Group) (total value width : Nat), BpInv groups total →
    let r := bpAppend groups total value width
    r.2 = total + width ∧ BpInv r.1 r.2 ∧ bpBits r.1 r.2 = bpBits groups total ++ valueBits value width
      ∧ (∀ j, j < (total + width + 6) / 7 →
          (r.1.getD j 0).toNat
            = ((List.range 7).map fun i =>
                if (bpBits groups total ++ valueBits value width).getD (7 * j + i) false then 2 ^ i else 0).sum)
      ∧ (∀ j, j < total / 7 → r.1[j]? = groups[j]?)

/-- R73: an append of width 0 returns the accumulator as it was, also in the middle of a group and whatever the value. -/
def Obligations.ZeroWidthAppendIsNoOp : Prop :=
  ∀ (groups : List Group) (total value : Nat), bpAppend groups total value 0 = (groups, total)

/-- The splitting law (marked "derived: from rule R67" by the spec): appending in two pieces, low piece first, is appending once. -/
def Obligations.SplittingLaw : Prop :=
  ∀ (groups : List Group) (total value width k : Nat), BpInv groups total → k ≤ width →
    let first := bpAppend groups total (value % 2 ^ k) k
    bpAppend first.1 first.2 (value >>> k) (width - k) = bpAppend groups total value width

/-- R74: commands that append the widths w1, …, wk to an empty accumulator leave `BP.TB = W`, their sum, and `ceil(W / 7)` groups;
a snapshot has `max(ceil(W / 7), n)` bytes, each at most 127. -/
def Obligations.GroupCountAfterAppends : Prop :=
  ∀ (s : State) (fields : List (Nat × Nat)) (n : Nat),
    s.bpG = [] → s.bpTB = 0 → s.cfg.bpCap = .inf → s.cfg.bufCap = .inf →
      ∃ t u, execAll (fields.map fun f => .bpapp f.2 f.1) s = .next t ∧ exec (.bpsnap n) t = .next u
        ∧ t.bpTB = (fields.map Prod.snd).sum ∧ t.bpG.length = ((fields.map Prod.snd).sum + 6) / 7
        ∧ u.out.length = max (((fields.map Prod.snd).sum + 6) / 7) n ∧ ∀ x ∈ u.out, x.toNat ≤ 127

/-- The round trip (marked "derived: from rule R67" by the spec): unpacking with the same widths gives every value modulo
`2 ^ width`, from the groups and from any snapshot of them. -/
def Obligations.UnpackRecoversTheValues : Prop :=
  ∀ (fields : List (Nat × Nat)) (n : Nat),
    bpUnpack (packed fields).1 (fields.map Prod.snd) = fields.map (fun f => f.1 % 2 ^ f.2)
      ∧ bpUnpack (bpSnapshot (packed fields).1 n) (fields.map Prod.snd) = fields.map (fun f => f.1 % 2 ^ f.2)

/-- R68: the snapshot is the groups, padded with zero groups when there are fewer than `minGroups`; its length; it never
truncates. -/
def Obligations.SnapshotPadsWithZeroGroups : Prop :=
  ∀ (groups : List Group) (n : Nat),
    bpSnapshot groups n = (if groups.length < n then groups ++ List.replicate (n - groups.length) 0 else groups)
      ∧ (bpSnapshot groups n).length = max groups.length n ∧ bpSnapshot groups 0 = groups

/-- R71: the encoding of `BPSNAP`; the padded copy in `O` with the accumulator unchanged; `CapacityExceeded` with `O` emptied. -/
def Obligations.BpsnapCopiesThePaddedGroups : Prop :=
  (∀ n : Nat, n < 65536 → encode (.bpsnap n) = 0x12000000 ||| BitVec.ofNat 32 n)
    ∧ ∀ (s : State) (n : Nat),
      (Within s.cfg.bufCap (max s.bpG.length n) →
          exec (.bpsnap n) s
            = .next { s with out := s.bpG.map (fun g => g.setWidth 8) ++ List.replicate (n - s.bpG.length) 0
                             okind := .groups, status := 0x0000 })
        ∧ (∀ c, s.cfg.bufCap = .bounded c → c < max s.bpG.length n →
          exec (.bpsnap n) s = .next { s with out := [], okind := .none, status := 0x0011 })

/-- A snapshot appended to `P` never makes `FBUILD` raise `InvalidPayload` (marked "derived" by the spec, 40_bitpacker.md). -/
def Obligations.SnapshotPayloadIsNeverInvalid : Prop :=
  ∀ s : State, s.Inv → s.okind = .groups → (∀ b, ∀ x ∈ s.buf b, x.toNat ≤ 0x7F) →
    ∃ t u, exec (.bufcat .p) s = .next t ∧ exec .fbuild t = .next u ∧ u.code ≠ 0x01

/-! ### The checksum engine -/

/-- R80: the recurrence, and the rule's worked example. -/
def Obligations.ChecksumRecurrence : Prop :=
  (∀ payload : List Byte,
      checksum payload = payload.foldl (fun acc b => (acc * 3 + b.toNat) % 256) payload.length % 128)
    ∧ checksum [0, 0, 0, 0, 32, 0, 0] = 109

/-- The 8-bit engine, round by round, computes the checksum (marked "derived: from rule R80" by the spec, 41_checksum.md). -/
def Obligations.EngineComputesTheChecksum : Prop :=
  ∀ payload : List Byte, (checksumEngine payload).toNat = checksum payload

/-- A closed form of the recurrence, derived here from it: the length and the bytes weighted by powers of 3, modulo 256, modulo
128. -/
def Obligations.ChecksumIsAWeightedSum : Prop :=
  ∀ payload : List Byte,
    checksum payload
      = (payload.length * 3 ^ payload.length
          + ((List.range payload.length).map fun i => (payload.getD i 0).toNat * 3 ^ (payload.length - 1 - i)).sum) % 256 % 128

/-- The result is at most 127, and the source's representative pair tells the order of bytes apart (41_checksum.md, section 2;
the spec marks the numbers as derived). -/
def Obligations.ChecksumRangeAndOrder : Prop :=
  (∀ payload : List Byte, checksum payload ≤ 127)
    ∧ checksum [1, 2] = 23 ∧ checksum [2, 1] = 25 ∧ checksum [] = 0 ∧ checksum [0] = 3 ∧ checksum [0, 0] = 18

/-- Error detection, derived here from the recurrence: two payloads that differ in exactly one byte, both values of it at most
0x7F, never have the same checksum. -/
def Obligations.OneChangedByteIsDetected : Prop :=
  ∀ (before after : List Byte) (x y : Byte), x ≠ y → x.toNat ≤ 0x7F → y.toNat ≤ 0x7F →
    checksum (before ++ x :: after) ≠ checksum (before ++ y :: after)

/-- R82: the encoding of `CKSUM`, the one checksum byte in `O`, and the refusal with a capacity of 0. -/
def Obligations.CksumWritesTheChecksum : Prop :=
  (∀ b : Buf, encode (.cksum b) = 0x20000000 ||| ((encodeBuf b).setWidth 32 <<< 16))
    ∧ ∀ (s : State) (b : Buf),
      (Within s.cfg.bufCap 1 →
          exec (.cksum b) s
            = .next { s with out := [BitVec.ofNat 8 (checksum (s.buf b))], okind := .sum, status := 0x0000 })
        ∧ (s.cfg.bufCap = .bounded 0 →
          exec (.cksum b) s = .next { s with out := [], okind := .none, status := 0x0011 })

/-! ### The frame unit -/

/-- R88 to R91, the operands being the buffers that the selectors 0 to 3 name (R11): `FBUILD` concatenates the four buffers and
the payload's checksum and dumps the frame; any byte above 0x7F in any of the four buffers refuses it, before the capacity is
looked at (R128). -/
def Obligations.FbuildBuildsOrRefuses : Prop :=
  encode .fbuild = 0x30000000
    ∧ ∀ s : State, let input := s.buf .m ++ s.buf .s ++ s.buf .d ++ s.buf .p
      ((∀ x ∈ input, x.toNat ≤ 0x7F) → Within s.cfg.bufCap (input.length + 1) →
          exec .fbuild s
            = .next { s with out := input ++ [BitVec.ofNat 8 (checksum (s.buf .p))], okind := .frame
                             diag := s.diag ++ [.frameDump (hexdump (input ++ [BitVec.ofNat 8 (checksum (s.buf .p))]))]
                             status := 0x0000 })
        ∧ ((∃ x ∈ input, 0x7F < x.toNat) →
          exec .fbuild s = .next { s with out := [], okind := .none, status := 0x0001 })
        ∧ (∀ c, (∀ x ∈ input, x.toNat ≤ 0x7F) → s.cfg.bufCap = .bounded c → c < input.length + 1 →
          exec .fbuild s = .next { s with out := [], okind := .none, status := 0x0011 })

/-- A frame that `FBUILD` leaves in `O` is 7-bit-clean (marked "derived" by the spec, 42_frame_build.md). -/
def Obligations.BuiltFramesAreClean : Prop :=
  ∀ s t : State, exec .fbuild s = .next t → t.code = okCode → t.okind = .frame ∧ t.out ≠ [] ∧ ∀ x ∈ t.out, x.toNat ≤ 0x7F

/-- R96 to R99: the heartbeat is discarded with `HBD` set and no event; any other sequence with room for the three ids and a
checksum byte is logged split into its fields; any other is logged as it came; nothing else changes; no other command sets
`HBD`. -/
def Obligations.FparseDiscardsOrLogs : Prop :=
  (∀ b : Buf, encode (.fparse b) = 0x31000000 ||| ((encodeBuf b).setWidth 32 <<< 16))
    ∧ ∀ (s : State) (b : Buf),
      (s.buf b = [0, 33, 16, 119, 102, 0, 0, 0, 0, 32, 0, 0, 109] →
          exec (.fparse b) s = .next { s with status := 0x0100 })
        ∧ (∀ (mfr sub dev payload : List Byte) (ck : Byte),
          s.buf b ≠ [0, 33, 16, 119, 102, 0, 0, 0, 0, 32, 0, 0, 109] →
          mfr.length = s.cfg.mfrLen → sub.length = s.cfg.subLen → dev.length = s.cfg.devLen →
          s.buf b = mfr ++ sub ++ dev ++ payload ++ [ck] →
            exec (.fparse b) s
              = .next { s with diag := s.diag ++ [.decoded (.fields mfr sub dev payload ck (decide (checksum payload = ck.toNat)))]
                               status := 0x0000 })
        ∧ (s.buf b ≠ [0, 33, 16, 119, 102, 0, 0, 0, 0, 32, 0, 0, 109] →
          (s.buf b).length < s.cfg.mfrLen + s.cfg.subLen + s.cfg.devLen + 1 →
            exec (.fparse b) s = .next { s with diag := s.diag ++ [.decoded (.short (s.buf b))], status := 0x0000 })
        ∧ (∀ (i : Instr) (t : State), exec i s = .next t → t.hbd = true → ∃ b', i = .fparse b')

/-- Parsing a built frame gives back its operands with a matching checksum (marked "derived" by the spec, 43_frame_parse.md). -/
def Obligations.ParseOfBuiltFrame : Prop :=
  ∀ (cfg : Config) (m s d p frame : List Byte),
    buildFrame m s d p = .ok frame → m.length = cfg.mfrLen → s.length = cfg.subLen → d.length = cfg.devLen →
      frame ≠ heartbeat → parseFrame cfg frame = .log (.fields m s d p (BitVec.ofNat 8 (checksum p)) true)

/-- The heartbeat is the frame of its own fields, and parses to `Discard` whatever the parameters (43_frame_parse.md, section 3;
marked "derived" by the spec). -/
def Obligations.HeartbeatIsABuiltFrame : Prop :=
  buildFrame [0x00, 0x21, 0x10] [0x77] [0x66] [0, 0, 0, 0, 0x20, 0, 0] = .ok heartbeat
    ∧ heartbeat = [0, 33, 16, 119, 102, 0, 0, 0, 0, 32, 0, 0, 109] ∧ ∀ cfg, parseFrame cfg heartbeat = .discard

/-! ### The hex parser -/

/-- The whitespace characters and the tokens (44_hex.md, section 1; the ASCII codes are general knowledge there, log entry 9):
a text made of whitespace and of runs of other characters, any two runs apart, has these runs as its tokens, in order. -/
def Obligations.TokensAreTheMaximalRuns : Prop :=
  (∀ c : Byte, isWhitespace c = true ↔ c.toNat ∈ [0x20, 0x09, 0x0A, 0x0B, 0x0C, 0x0D])
    ∧ ∀ (lead last : List Byte) (pieces : List (List Byte × List Byte)),
      (∀ c ∈ lead, isWhitespace c = true) → (∀ c ∈ last, isWhitespace c = false) →
      (∀ p ∈ pieces, p.1 ≠ [] ∧ (∀ c ∈ p.1, isWhitespace c = false) ∧ p.2 ≠ [] ∧ ∀ c ∈ p.2, isWhitespace c = true) →
        tokens (lead ++ pieces.flatMap (fun p => p.1 ++ p.2) ++ last)
          = pieces.map Prod.fst ++ (if last = [] then [] else [last])

/-- Hex digits and hex byte tokens (44_hex.md, section 1; the ASCII codes are general knowledge there, log entry 9): one or two
digits spell a byte, nothing else does. -/
def Obligations.HexByteTokens : Prop :=
  (∀ (lower : Bool) (c : Byte) (d : Nat), hexDigit lower c = some d ↔
      (0x30 ≤ c.toNat ∧ c.toNat ≤ 0x39 ∧ d = c.toNat - 0x30)
        ∨ (0x41 ≤ c.toNat ∧ c.toNat ≤ 0x46 ∧ d = c.toNat - 0x41 + 10)
        ∨ (lower = true ∧ 0x61 ≤ c.toNat ∧ c.toNat ≤ 0x66 ∧ d = c.toNat - 0x61 + 10))
    ∧ ∀ (lower : Bool) (token : List Byte) (x : Byte), tokenValue lower token = some x ↔
      (∃ c d, token = [c] ∧ hexDigit lower c = some d ∧ x.toNat = d)
        ∨ ∃ c c' d d', token = [c, c'] ∧ hexDigit lower c = some d ∧ hexDigit lower c' = some d' ∧ x.toNat = 16 * d + d'

/-- R106, R107: the encoding of `HEXPARSE`; when every token spells a byte, `O` holds these bytes in order, at most one for every two
characters; one token that does not refuses the whole text and empties `O`. No capacity stops it. -/
def Obligations.HexparseReadsOrRefuses : Prop :=
  (∀ b : Buf, encode (.hexparse b) = 0x40000000 ||| ((encodeBuf b).setWidth 32 <<< 16))
    ∧ ∀ (s : State) (b : Buf),
      (∀ bytes : List Byte, (tokens (s.buf b)).map (tokenValue s.cfg.hexLower) = bytes.map some →
          exec (.hexparse b) s = .next { s with out := bytes, okind := .raw, status := 0x0000 }
            ∧ bytes.length ≤ ((s.buf b).length + 1) / 2)
        ∧ ((∃ t ∈ tokens (s.buf b), tokenValue s.cfg.hexLower t = none) →
          exec (.hexparse b) s = .next { s with out := [], okind := .none, status := 0x0002 })

/-- The form of the hex dump (30_encoding.md, Part B; the ASCII codes are general knowledge there, log entry 9): byte `i` is the two
characters at `3 * i` and `3 * i + 1`, its upper-case hex digits, high digit first; one space stands between two bytes; there is
no other character, so none at either end. -/
def Obligations.HexdumpHasItsForm : Prop :=
  ∀ bytes : List Byte,
    (hexdump bytes).length = 3 * bytes.length - 1
      ∧ ∀ (i : Nat) (x : Byte), bytes[i]? = some x →
        (∃ hi lo : Byte, (hexdump bytes)[3 * i]? = some hi ∧ (hexdump bytes)[3 * i + 1]? = some lo
          ∧ hi.toNat = (if x.toNat / 16 < 10 then 0x30 + x.toNat / 16 else 0x41 + (x.toNat / 16 - 10))
          ∧ lo.toNat = (if x.toNat % 16 < 10 then 0x30 + x.toNat % 16 else 0x41 + (x.toNat % 16 - 10)))
        ∧ (i + 1 < bytes.length → (hexdump bytes)[3 * i + 2]? = some 0x20)

/-- Dump and parse fit together (marked "derived" by the spec, 44_hex.md): `HEXPARSE` of a dump gives the bytes again, high
bytes included, with and without `HEX_LOWER`. -/
def Obligations.HexparseOfDumpGivesTheBytes : Prop :=
  ∀ (s : State) (b : Buf) (bytes : List Byte), s.buf b = hexdump bytes →
    exec (.hexparse b) s = .next { s with out := bytes, okind := .raw, status := 0x0000 }

/-! ### The buffer commands -/

/-- R113: the encoding of `BUFCLR` and its whole effect. -/
def Obligations.BufclrEmptiesOneBuffer : Prop :=
  ∀ (s : State) (b : Buf), encode (.bufclr b) = 0x50000000 ||| ((encodeBuf b).setWidth 32 <<< 16)
    ∧ ∃ t, exec (.bufclr b) s = .next t ∧ t.buf b = [] ∧ (∀ b', b' ≠ b → t.buf b' = s.buf b') ∧ t.status = 0x0000
      ∧ SameBesideInputs s t

/-- R114: the encoding of `BUFPUSH`, the byte at the end of the buffer, every byte value accepted; `CapacityExceeded` with nothing
stored; a word with `imm[15:8]` nonzero is no `BUFPUSH` but illegal. -/
def Obligations.BufpushAppendsOneByte : Prop :=
  (∀ (b : Buf) (x : Byte),
      encode (.bufpush b x) = 0x51000000 ||| ((encodeBuf b).setWidth 32 <<< 16) ||| x.setWidth 32)
    ∧ (∀ w : Word, w.extractLsb' 24 8 = 0x51 → w.extractLsb' 8 8 ≠ 0 → ∃ e, decode w = .error e)
    ∧ ∀ (s : State) (b : Buf) (x : Byte),
      (Within s.cfg.bufCap ((s.buf b).length + 1) →
          ∃ t, exec (.bufpush b x) s = .next t ∧ t.buf b = s.buf b ++ [x] ∧ (∀ b', b' ≠ b → t.buf b' = s.buf b')
            ∧ t.status = 0x0000 ∧ SameBesideInputs s t)
        ∧ (∀ c, s.cfg.bufCap = .bounded c → c < (s.buf b).length + 1 →
          exec (.bufpush b x) s = .next { s with status := 0x0011 })

/-- R115: the encoding of `BUFCAT`, the whole of `O` at the end of the buffer; `CapacityExceeded` with nothing copied; `O` and
`OKIND` unchanged either way. -/
def Obligations.BufcatAppendsTheOutput : Prop :=
  (∀ b : Buf, encode (.bufcat b) = 0x52000000 ||| ((encodeBuf b).setWidth 32 <<< 16))
    ∧ ∀ (s : State) (b : Buf),
      (Within s.cfg.bufCap ((s.buf b).length + s.out.length) →
          ∃ t, exec (.bufcat b) s = .next t ∧ t.buf b = s.buf b ++ s.out ∧ (∀ b', b' ≠ b → t.buf b' = s.buf b')
            ∧ t.status = 0x0000 ∧ SameBesideInputs s t)
        ∧ (∀ c, s.cfg.bufCap = .bounded c → c < (s.buf b).length + s.out.length →
          exec (.bufcat b) s = .next { s with status := 0x0011 })

/-- R131's instance: after a failed `BPSNAP` a `BUFCAT` appends the empty `O`, and succeeds. -/
def Obligations.BufcatAfterFailedSnapshot : Prop :=
  ∀ (s : State) (b : Buf) (n c : Nat), s.cfg.bufCap = .bounded c → c < max s.bpG.length n → (s.buf b).length ≤ c →
    ∃ t u, exec (.bpsnap n) s = .next t ∧ t.code = 0x11 ∧ exec (.bufcat b) t = .next u
      ∧ u = { s with out := [], okind := .none, status := 0x0000 }

/-! ### Errors, status and trace, over all words -/

/-- R130: a word whose command ends with an error changes `STATUS`, and `O` and `OKIND` when it is a producer command, and nothing
else; `HBD` is cleared. So no partial result is ever visible. -/
def Obligations.ErrorEntryChangesNothingElse : Prop :=
  ∀ (w : Word) (s t : State), runWord w s = .next t → t.code ≠ 0x00 →
    t = if producerWord w = true then { s with out := [], okind := .none, status := statusWord t.code false }
        else { s with status := statusWord t.code false }

/-- R18: every word, legal or not, overwrites the whole of `STATUS`, so nothing in it is sticky; the fields lie where the rule puts
them, bits 15:9 are 0, and reset leaves 0. -/
def Obligations.StatusIsOverwrittenWhole : Prop :=
  (∀ (w : Word) (s : State) (old : BitVec 16), runWord w { s with status := old } = runWord w s)
    ∧ (∀ (w : Word) (s t : State), runWord w s = .next t → t.status.extractLsb' 9 7 = 0)
    ∧ (∀ s : State, s.code = s.status.extractLsb' 0 8 ∧ s.hbd = s.status.getLsbD 8)
    ∧ State.reset.status = 0x0000

/-- R20: `HBD` is 1 exactly after an `FPARSE` whose operand equals the heartbeat, and 0 after every other word and outcome; no
command reads it. -/
def Obligations.HbdOnlyAfterTheHeartbeat : Prop :=
  ∀ (w : Word) (s : State), ∃ t, runWord w s = .next t
    ∧ (t.hbd = true ↔ ∃ b, decode w = .ok (.fparse b) ∧ s.buf b = [0, 33, 16, 119, 102, 0, 0, 0, 0, 32, 0, 0, 109])
    ∧ ∀ hbd : Bool, runWord w (s.setStatus (statusWord s.code hbd)) = .next t

/-- R122: the numbers of the codes, which codes the block produces, and which commands raise each. -/
def Obligations.StatusCodesAndWhoRaisesThem : Prop :=
  (okCode = 0x00 ∧ errorCode .invalidPayload = 0x01 ∧ errorCode .malformedHex = 0x02 ∧ errorCode .deviceUnavailable = 0x03
      ∧ errorCode .transportWriteFailure = 0x04 ∧ errorCode .illegalCommand = 0x10 ∧ errorCode .capacityExceeded = 0x11)
    ∧ ∀ (w : Word) (s t : State), runWord w s = .next t →
      t.code ∈ ([0x00, 0x01, 0x02, 0x10, 0x11] : List (BitVec 8))
        ∧ (t.code = 0x01 → decode w = .ok .fbuild) ∧ (t.code = 0x02 → ∃ b, decode w = .ok (.hexparse b))
        ∧ (t.code = 0x10 ↔ ∃ e, decode w = .error e)
        ∧ (t.code = 0x11 → (∃ c, s.cfg.bufCap = .bounded c ∨ s.cfg.bpCap = .bounded c)
            ∧ ((∃ n v, decode w = .ok (.bpapp n v)) ∨ (∃ n, decode w = .ok (.bpsnap n)) ∨ (∃ b, decode w = .ok (.cksum b))
              ∨ decode w = .ok .fbuild ∨ (∃ b x, decode w = .ok (.bufpush b x)) ∨ ∃ b, decode w = .ok (.bufcat b)))

/-- R13: the tag values; a producer command that succeeds leaves its own kind, one that fails leaves `NONE` and an empty `O`, and
what `O` holds fits its kind; every other word leaves `O` and `OKIND` as they were. -/
def Obligations.OutputKindNamesTheProducer : Prop :=
  (okindTag .none = 0 ∧ okindTag .groups = 1 ∧ okindTag .sum = 2 ∧ okindTag .frame = 3 ∧ okindTag .raw = 4)
    ∧ ∀ (w : Word) (s t : State), runWord w s = .next t →
      (t.code = okCode →
          ((∃ n, decode w = .ok (.bpsnap n)) → t.okind = .groups) ∧ ((∃ b, decode w = .ok (.cksum b)) → t.okind = .sum)
            ∧ (decode w = .ok .fbuild → t.okind = .frame) ∧ ((∃ b, decode w = .ok (.hexparse b)) → t.okind = .raw))
        ∧ (producerWord w = true → OutInv t ∧ (t.code ≠ okCode → t.out = [] ∧ t.okind = .none))
        ∧ (producerWord w = false → t.out = s.out ∧ t.okind = s.okind)

/-- R21: a word appends at most one event to `DIAG` and nothing it does depends on the trace; it appends exactly on a successful
`FBUILD`, the dump of its frame, and on an `FPARSE` of anything but the heartbeat, a decoded entry. -/
def Obligations.TraceIsAppendedToAndNeverRead : Prop :=
  ∀ (w : Word) (s t : State), runWord w s = .next t →
    ∃ events : List DiagEvent, t.diag = s.diag ++ events
      ∧ (∀ diag, runWord w { s with diag := diag } = .next { t with diag := diag ++ events })
      ∧ ((decode w = .ok .fbuild ∧ t.code = okCode ∧ events = [.frameDump (hexdump t.out)])
        ∨ (∃ b entry, decode w = .ok (.fparse b) ∧ s.buf b ≠ heartbeat ∧ parseFrame s.cfg (s.buf b) = .log entry
          ∧ events = [.decoded entry])
        ∨ (events = [] ∧ (decode w = .ok .fbuild → t.code ≠ okCode) ∧ ∀ b, decode w = .ok (.fparse b) → s.buf b = heartbeat))

/-- The table of who reads and writes what (10_state.md, section 8): the frame, checksum, hex and buffer commands neither read nor
write the accumulator, and `BPCLR` and `BPAPP` neither read nor write a buffer or `OKIND`. -/
def Obligations.AccumulatorAndBuffersShareNothing : Prop :=
  (∀ (i : Instr) (s t : State) (groups : List Group) (total : Nat),
      i ≠ .bpclr → (∀ w v, i ≠ .bpapp w v) → (∀ n, i ≠ .bpsnap n) → exec i s = .next t →
        exec i (s.setBp groups total) = .next (t.setBp groups total) ∧ t.bpG = s.bpG ∧ t.bpTB = s.bpTB)
    ∧ ∀ (i : Instr) (s t : State) (m s' d p o : List Byte) (k : OKind),
      (i = .bpclr ∨ ∃ w v, i = .bpapp w v) → exec i s = .next t →
        exec i (s.setBuffers m s' d p o k) = .next (t.setBuffers m s' d p o k) ∧ (∀ b, t.buf b = s.buf b)
          ∧ t.out = s.out ∧ t.okind = s.okind

/-- The ways of access (20_memory.md, section 1): no byte already in an input buffer, and no group before the last, is ever changed
by a word except by emptying the whole space. (`O` is replaced whole by a producer and is not spoken of here.) -/
def Obligations.InputBufferBytesAndEarlierGroupsStay : Prop :=
  ∀ (w : Word) (s t : State), runWord w s = .next t →
    (∀ b i x, s.elem (.input b) i = some x → t.buf b = [] ∨ t.elem (.input b) i = some x)
      ∧ ∀ i x, i + 1 < s.bpG.length → s.elem .groups i = some x → t.bpG = [] ∨ t.elem .groups i = some x

/-! ### Invariants and runs -/

/-- The state right after reset, with any parameters and any inputs of the host, has the invariant. -/
def Obligations.InvariantAtReset : Prop :=
  (∀ (cfg : Config) (inputs : List HostInput), (State.start cfg inputs).Inv) ∧ State.reset.Inv

/-- Every step, an idle one (log entry 4) and a reset (log entry 5) among them, keeps the invariant: the accumulator's group count
and zero rest (R16), what `STATUS`, `O` and `OKIND` can hold (R13, R18, R122, R127), and the capacities (R11, R12, R14). -/
def Obligations.EveryStepKeepsTheInvariant : Prop :=
  ∀ s t : State, s.Inv → step s = .next t → t.Inv

/-- Every run, from reset with any parameters and any inputs of the host, goes on for any number of steps, keeps the invariant and
the parameters, and takes one input a step. That a run goes on when its inputs are used up is the model's choice (log entry 4);
that the inputs are a list and a reset one of them is the model's form (log entries 2, 5). -/
def Obligations.EveryRunIsSafe : Prop :=
  ∀ (cfg : Config) (inputs : List HostInput) (n : Nat),
    ∃ t : State, Host.Core.run Sys2Proof.core n (State.start cfg inputs) = .next t ∧ t.Inv ∧ t.cfg = cfg
      ∧ t.pending = inputs.drop n ∧ SafeStep t

/-- The five examples of 70_reset_and_hazards.md, section 2 (marked "derived" by the spec): what `BPSNAP 8`, `CKSUM P`, `FBUILD`,
`FPARSE P` and `HEXPARSE P` do right after reset, with the default parameters. -/
def Obligations.FirstCommandsAfterReset : Prop :=
  step (State.reset.issueNext 0x12000008) = .next { State.reset with out := [0, 0, 0, 0, 0, 0, 0, 0], okind := .groups }
    ∧ step (State.reset.issueNext 0x20030000) = .next { State.reset with out := [0], okind := .sum }
    ∧ step (State.reset.issueNext 0x30000000)
      = .next { State.reset with out := [0], okind := .frame, diag := [.frameDump [0x30, 0x30]] }
    ∧ step (State.reset.issueNext 0x31030000) = .next { State.reset with diag := [.decoded (.short [])] }
    ∧ step (State.reset.issueNext 0x40030000) = .next { State.reset with okind := .raw }

/-- The other five commands right after reset, with the default parameters and one choice of operands each (70_reset_and_hazards.md,
section 2, names no example of them). -/
def Obligations.OtherFiveCommandsAfterReset : Prop :=
  step (State.reset.issueNext 0x10000000) = .next State.reset
    ∧ step (State.reset.issueNext 0x110800FF) = .next { State.reset with bpG := [127, 1], bpTB := 8 }
    ∧ step (State.reset.issueNext 0x50030000) = .next State.reset
    ∧ step (State.reset.issueNext 0x510100FF) = .next { State.reset with bufS := [0xFF] }
    ∧ step (State.reset.issueNext 0x52030000) = .next State.reset

/-! ### Pseudo-instructions -/

/-- `BPAPPW w, v` of R53 does what one append of the whole value does (rests on the splitting law, which the spec derives), and
every command of its expansion is well-formed. -/
def Obligations.BpappwIsOneWideAppend : Prop :=
  ∀ (s : State) (w v : Nat), BpInv s.bpG s.bpTB → s.cfg.bpCap = .inf →
    (∀ i ∈ expand (.bpappw w v), i.wellFormed = true)
      ∧ execAll (expand (.bpappw w v)) s
        = .next { s with bpG := (bpAppend s.bpG s.bpTB v w).1, bpTB := s.bpTB + w, status := 0x0000 }

/-- `BUFSET` and `BUFTEXT` of R53 load the buffer with exactly the listed bytes, whatever it held, when they fit. -/
def Obligations.BufsetLoadsTheBuffer : Prop :=
  ∀ (s : State) (b : Buf) (bytes : List Byte), Within s.cfg.bufCap bytes.length →
    expand (.buftext b bytes) = expand (.bufset b bytes)
      ∧ ∃ t, execAll (expand (.bufset b bytes)) s = .next t ∧ t.buf b = bytes ∧ (∀ b', b' ≠ b → t.buf b' = s.buf b')
        ∧ t.status = 0x0000 ∧ SameBesideInputs s t
end

