-- ==== Sys2Proof/Laws/Decode.lean ====
section
/-! SUPPORT. The fields of a command word and the word of given fields are inverse to each other (R45). -/

namespace Sys2Proof

/-- Bit `i` of the word of given fields (R45). -/
theorem getLsbD_packWord (op a : BitVec 8) (imm : BitVec 16) (i : Nat) (hi : i < 32) :
    (packWord op a imm).getLsbD i
      = if i < 16 then imm.getLsbD i else if i < 24 then a.getLsbD (i - 16) else op.getLsbD (i - 24) := by
  simp only [packWord, BitVec.getLsbD_or, BitVec.getLsbD_shiftLeft, BitVec.getLsbD_setWidth, hi, decide_true,
    Bool.true_and]
  split
  · simp [show i < 24 by omega, *]
  · rw [BitVec.getLsbD_of_ge imm i (by omega)]
    split
    · simp [show ¬ i < 16 by omega, show i - 16 < 32 by omega, *]
    · rw [BitVec.getLsbD_of_ge a (i - 16) (by omega)]
      simp [show i - 24 < 32 by omega, *]

@[simp] theorem opField_packWord (op a : BitVec 8) (imm : BitVec 16) : opField (packWord op a imm) = op := by
  refine BitVec.eq_of_getLsbD_eq fun i hi => ?_
  rw [opField, BitVec.getLsbD_extractLsb', getLsbD_packWord _ _ _ _ (by omega)]
  simp [hi, show ¬ 24 + i < 16 by omega]

@[simp] theorem aField_packWord (op a : BitVec 8) (imm : BitVec 16) : aField (packWord op a imm) = a := by
  refine BitVec.eq_of_getLsbD_eq fun i hi => ?_
  rw [aField, BitVec.getLsbD_extractLsb', getLsbD_packWord _ _ _ _ (by omega)]
  simp [hi, show 16 + i < 24 by omega]

@[simp] theorem immField_packWord (op a : BitVec 8) (imm : BitVec 16) : immField (packWord op a imm) = imm := by
  refine BitVec.eq_of_getLsbD_eq fun i hi => ?_
  rw [immField, BitVec.getLsbD_extractLsb', getLsbD_packWord _ _ _ _ (by omega)]
  simp [hi]

@[simp] theorem packWord_fields (w : Word) : packWord (opField w) (aField w) (immField w) = w := by
  refine BitVec.eq_of_getLsbD_eq fun i hi => ?_
  rw [getLsbD_packWord _ _ _ _ hi, opField, aField, immField]
  simp only [BitVec.getLsbD_extractLsb']
  split
  · simp [*]
  · split
    · simp [show i - 16 < 8 by omega, show 16 + (i - 16) = i by omega]
    · simp [show i - 24 < 8 by omega, show 24 + (i - 24) = i by omega]

/-- The bits of a packed word under a packed mask are the fields under the fields' masks. -/
theorem packWord_and (op a mop ma : BitVec 8) (imm mimm : BitVec 16) :
    packWord op a imm &&& packWord mop ma mimm = packWord (op &&& mop) (a &&& ma) (imm &&& mimm) := by
  refine BitVec.eq_of_getLsbD_eq fun i hi => ?_
  rw [BitVec.getLsbD_and, getLsbD_packWord _ _ _ _ hi, getLsbD_packWord _ _ _ _ hi, getLsbD_packWord _ _ _ _ hi]
  split
  · simp
  · split <;> simp

/-- A buffer's selector names the buffer (R46). -/
@[simp] theorem decodeBuf_encodeBuf (b : Buf) : decodeBuf (encodeBuf b) = some b := by
  cases b <;> rfl

end Sys2Proof
end

