-- ==== Sys2Proof/Laws/State.lean ====
section
/-! SUPPORT. One lemma per field per update of the state, so that no proof unfolds a record update. -/

namespace Sys2Proof.Machine

@[simp] theorem setOut_bufM (s : State) (bytes : List Byte) (kind : OKind) : (s.setOut bytes kind).bufM = s.bufM := rfl
@[simp] theorem setOut_bufS (s : State) (bytes : List Byte) (kind : OKind) : (s.setOut bytes kind).bufS = s.bufS := rfl
@[simp] theorem setOut_bufD (s : State) (bytes : List Byte) (kind : OKind) : (s.setOut bytes kind).bufD = s.bufD := rfl
@[simp] theorem setOut_bufP (s : State) (bytes : List Byte) (kind : OKind) : (s.setOut bytes kind).bufP = s.bufP := rfl
@[simp] theorem setOut_out (s : State) (bytes : List Byte) (kind : OKind) : (s.setOut bytes kind).out = bytes := rfl
@[simp] theorem setOut_okind (s : State) (bytes : List Byte) (kind : OKind) : (s.setOut bytes kind).okind = kind := rfl
@[simp] theorem setOut_bpG (s : State) (bytes : List Byte) (kind : OKind) : (s.setOut bytes kind).bpG = s.bpG := rfl
@[simp] theorem setOut_bpTB (s : State) (bytes : List Byte) (kind : OKind) : (s.setOut bytes kind).bpTB = s.bpTB := rfl
@[simp] theorem setOut_status (s : State) (bytes : List Byte) (kind : OKind) : (s.setOut bytes kind).status = s.status := rfl
@[simp] theorem setOut_diag (s : State) (bytes : List Byte) (kind : OKind) : (s.setOut bytes kind).diag = s.diag := rfl
@[simp] theorem setOut_cfg (s : State) (bytes : List Byte) (kind : OKind) : (s.setOut bytes kind).cfg = s.cfg := rfl
@[simp] theorem setOut_pending (s : State) (bytes : List Byte) (kind : OKind) : (s.setOut bytes kind).pending = s.pending := rfl

@[simp] theorem setBp_bufM (s : State) (groups : List Group) (total : Nat) : (s.setBp groups total).bufM = s.bufM := rfl
@[simp] theorem setBp_bufS (s : State) (groups : List Group) (total : Nat) : (s.setBp groups total).bufS = s.bufS := rfl
@[simp] theorem setBp_bufD (s : State) (groups : List Group) (total : Nat) : (s.setBp groups total).bufD = s.bufD := rfl
@[simp] theorem setBp_bufP (s : State) (groups : List Group) (total : Nat) : (s.setBp groups total).bufP = s.bufP := rfl
@[simp] theorem setBp_out (s : State) (groups : List Group) (total : Nat) : (s.setBp groups total).out = s.out := rfl
@[simp] theorem setBp_okind (s : State) (groups : List Group) (total : Nat) : (s.setBp groups total).okind = s.okind := rfl
@[simp] theorem setBp_bpG (s : State) (groups : List Group) (total : Nat) : (s.setBp groups total).bpG = groups := rfl
@[simp] theorem setBp_bpTB (s : State) (groups : List Group) (total : Nat) : (s.setBp groups total).bpTB = total := rfl
@[simp] theorem setBp_status (s : State) (groups : List Group) (total : Nat) : (s.setBp groups total).status = s.status := rfl
@[simp] theorem setBp_diag (s : State) (groups : List Group) (total : Nat) : (s.setBp groups total).diag = s.diag := rfl
@[simp] theorem setBp_cfg (s : State) (groups : List Group) (total : Nat) : (s.setBp groups total).cfg = s.cfg := rfl
@[simp] theorem setBp_pending (s : State) (groups : List Group) (total : Nat) : (s.setBp groups total).pending = s.pending := rfl

@[simp] theorem setStatus_bufM (s : State) (word : BitVec 16) : (s.setStatus word).bufM = s.bufM := rfl
@[simp] theorem setStatus_bufS (s : State) (word : BitVec 16) : (s.setStatus word).bufS = s.bufS := rfl
@[simp] theorem setStatus_bufD (s : State) (word : BitVec 16) : (s.setStatus word).bufD = s.bufD := rfl
@[simp] theorem setStatus_bufP (s : State) (word : BitVec 16) : (s.setStatus word).bufP = s.bufP := rfl
@[simp] theorem setStatus_out (s : State) (word : BitVec 16) : (s.setStatus word).out = s.out := rfl
@[simp] theorem setStatus_okind (s : State) (word : BitVec 16) : (s.setStatus word).okind = s.okind := rfl
@[simp] theorem setStatus_bpG (s : State) (word : BitVec 16) : (s.setStatus word).bpG = s.bpG := rfl
@[simp] theorem setStatus_bpTB (s : State) (word : BitVec 16) : (s.setStatus word).bpTB = s.bpTB := rfl
@[simp] theorem setStatus_status (s : State) (word : BitVec 16) : (s.setStatus word).status = word := rfl
@[simp] theorem setStatus_diag (s : State) (word : BitVec 16) : (s.setStatus word).diag = s.diag := rfl
@[simp] theorem setStatus_cfg (s : State) (word : BitVec 16) : (s.setStatus word).cfg = s.cfg := rfl
@[simp] theorem setStatus_pending (s : State) (word : BitVec 16) : (s.setStatus word).pending = s.pending := rfl

@[simp] theorem emit_bufM (s : State) (event : DiagEvent) : (s.emit event).bufM = s.bufM := rfl
@[simp] theorem emit_bufS (s : State) (event : DiagEvent) : (s.emit event).bufS = s.bufS := rfl
@[simp] theorem emit_bufD (s : State) (event : DiagEvent) : (s.emit event).bufD = s.bufD := rfl
@[simp] theorem emit_bufP (s : State) (event : DiagEvent) : (s.emit event).bufP = s.bufP := rfl
@[simp] theorem emit_out (s : State) (event : DiagEvent) : (s.emit event).out = s.out := rfl
@[simp] theorem emit_okind (s : State) (event : DiagEvent) : (s.emit event).okind = s.okind := rfl
@[simp] theorem emit_bpG (s : State) (event : DiagEvent) : (s.emit event).bpG = s.bpG := rfl
@[simp] theorem emit_bpTB (s : State) (event : DiagEvent) : (s.emit event).bpTB = s.bpTB := rfl
@[simp] theorem emit_status (s : State) (event : DiagEvent) : (s.emit event).status = s.status := rfl
@[simp] theorem emit_diag (s : State) (event : DiagEvent) : (s.emit event).diag = s.diag ++ [event] := rfl
@[simp] theorem emit_cfg (s : State) (event : DiagEvent) : (s.emit event).cfg = s.cfg := rfl
@[simp] theorem emit_pending (s : State) (event : DiagEvent) : (s.emit event).pending = s.pending := rfl

@[simp] theorem setPending_bufM (s : State) (inputs : List HostInput) : (s.setPending inputs).bufM = s.bufM := rfl
@[simp] theorem setPending_bufS (s : State) (inputs : List HostInput) : (s.setPending inputs).bufS = s.bufS := rfl
@[simp] theorem setPending_bufD (s : State) (inputs : List HostInput) : (s.setPending inputs).bufD = s.bufD := rfl
@[simp] theorem setPending_bufP (s : State) (inputs : List HostInput) : (s.setPending inputs).bufP = s.bufP := rfl
@[simp] theorem setPending_out (s : State) (inputs : List HostInput) : (s.setPending inputs).out = s.out := rfl
@[simp] theorem setPending_okind (s : State) (inputs : List HostInput) : (s.setPending inputs).okind = s.okind := rfl
@[simp] theorem setPending_bpG (s : State) (inputs : List HostInput) : (s.setPending inputs).bpG = s.bpG := rfl
@[simp] theorem setPending_bpTB (s : State) (inputs : List HostInput) : (s.setPending inputs).bpTB = s.bpTB := rfl
@[simp] theorem setPending_status (s : State) (inputs : List HostInput) : (s.setPending inputs).status = s.status := rfl
@[simp] theorem setPending_diag (s : State) (inputs : List HostInput) : (s.setPending inputs).diag = s.diag := rfl
@[simp] theorem setPending_cfg (s : State) (inputs : List HostInput) : (s.setPending inputs).cfg = s.cfg := rfl
@[simp] theorem setPending_pending (s : State) (inputs : List HostInput) : (s.setPending inputs).pending = inputs := rfl

@[simp] theorem setBuf_bufM (s : State) (b : Buf) (bytes : List Byte) : (s.setBuf b bytes).bufM = if b = .m then bytes else s.bufM := rfl
@[simp] theorem setBuf_bufS (s : State) (b : Buf) (bytes : List Byte) : (s.setBuf b bytes).bufS = if b = .s then bytes else s.bufS := rfl
@[simp] theorem setBuf_bufD (s : State) (b : Buf) (bytes : List Byte) : (s.setBuf b bytes).bufD = if b = .d then bytes else s.bufD := rfl
@[simp] theorem setBuf_bufP (s : State) (b : Buf) (bytes : List Byte) : (s.setBuf b bytes).bufP = if b = .p then bytes else s.bufP := rfl
@[simp] theorem setBuf_out (s : State) (b : Buf) (bytes : List Byte) : (s.setBuf b bytes).out = s.out := rfl
@[simp] theorem setBuf_okind (s : State) (b : Buf) (bytes : List Byte) : (s.setBuf b bytes).okind = s.okind := rfl
@[simp] theorem setBuf_bpG (s : State) (b : Buf) (bytes : List Byte) : (s.setBuf b bytes).bpG = s.bpG := rfl
@[simp] theorem setBuf_bpTB (s : State) (b : Buf) (bytes : List Byte) : (s.setBuf b bytes).bpTB = s.bpTB := rfl
@[simp] theorem setBuf_status (s : State) (b : Buf) (bytes : List Byte) : (s.setBuf b bytes).status = s.status := rfl
@[simp] theorem setBuf_diag (s : State) (b : Buf) (bytes : List Byte) : (s.setBuf b bytes).diag = s.diag := rfl
@[simp] theorem setBuf_cfg (s : State) (b : Buf) (bytes : List Byte) : (s.setBuf b bytes).cfg = s.cfg := rfl
@[simp] theorem setBuf_pending (s : State) (b : Buf) (bytes : List Byte) : (s.setBuf b bytes).pending = s.pending := rfl

/-- Writing one input buffer leaves the other three (R113 to R115). -/
@[simp] theorem setBuf_buf (s : State) (b : Buf) (bytes : List Byte) (b' : Buf) :
    (s.setBuf b bytes).buf b' = if b' = b then bytes else s.buf b' := by
  cases b <;> cases b' <;> rfl

@[simp] theorem setOut_buf (s : State) (bytes : List Byte) (kind : OKind) (b : Buf) : (s.setOut bytes kind).buf b = s.buf b := by
  cases b <;> rfl

@[simp] theorem setBp_buf (s : State) (groups : List Group) (total : Nat) (b : Buf) : (s.setBp groups total).buf b = s.buf b := by
  cases b <;> rfl

@[simp] theorem setStatus_buf (s : State) (word : BitVec 16) (b : Buf) : (s.setStatus word).buf b = s.buf b := by
  cases b <;> rfl

@[simp] theorem emit_buf (s : State) (event : DiagEvent) (b : Buf) : (s.emit event).buf b = s.buf b := by
  cases b <;> rfl

@[simp] theorem setPending_buf (s : State) (inputs : List HostInput) (b : Buf) : (s.setPending inputs).buf b = s.buf b := by
  cases b <;> rfl

end Sys2Proof.Machine
end

