-- ==== Sys2Proof/Laws/Ops.lean ====
section
/-! SUPPORT. What the shared operations do, each said once. -/

namespace Sys2Proof.Machine

/-- Bits 7:0 of a status word are its code (R18). -/
theorem codeBits_statusWord (code : BitVec 8) (hbd : Bool) : (statusWord code hbd).extractLsb' 0 8 = code := by
  cases hbd <;> revert code <;> decide

/-- Bit 8 of a status word is `HBD` (R18). -/
theorem hbdBit_statusWord (code : BitVec 8) (hbd : Bool) : (statusWord code hbd).getLsbD 8 = hbd := by
  cases hbd <;> revert code <;> decide

/-- `STATUS.CODE` of a status word (R18). -/
@[simp] theorem code_setStatus (s : State) (code : BitVec 8) (hbd : Bool) :
    (s.setStatus (statusWord code hbd)).code = code := codeBits_statusWord code hbd

/-- `STATUS.HBD` of a status word (R18). -/
@[simp] theorem hbd_setStatus (s : State) (code : BitVec 8) (hbd : Bool) :
    (s.setStatus (statusWord code hbd)).hbd = hbd := hbdBit_statusWord code hbd

/-- Bits 15:9 of a status word read as 0 (R18). -/
theorem reserved_statusWord (code : BitVec 8) (hbd : Bool) : (statusWord code hbd).extractLsb' 9 7 = 0 := by
  cases hbd <;> revert code <;> decide

/-- The capacity test is the comparison with a finite capacity, and always passes at `inf` (R5, R126). -/
theorem fits_iff (c : Cap) (n : Nat) : fits c n = true ↔ ∀ k, c = .bounded k → n ≤ k := by
  cases c <;> simp [fits]

/-- Success writes `STATUS` alone. -/
theorem succeed_eq (s : State) : succeed s = { s with status := 0x0000 } := rfl

/-- A producer's success writes `O`, `OKIND` and `STATUS` alone. -/
theorem produce_eq (bytes : List Byte) (kind : OKind) (s : State) :
    produce bytes kind s = { s with out := bytes, okind := kind, status := 0x0000 } := rfl

/-- Error entry of a plain command writes `STATUS` alone (R130). -/
theorem raiseError_plain (e : ErrorName) (s : State) :
    raiseError .plain e s = { s with status := statusWord (errorCode e) false } := rfl

/-- Error entry of a producer empties its result besides (R130). -/
theorem raiseError_producer (e : ErrorName) (s : State) :
    raiseError .producer e s = { s with out := [], okind := .none, status := statusWord (errorCode e) false } := rfl

/-- Reset keeps the trace, the parameters and the host's inputs, and nothing else (R140 to R142). -/
theorem hostReset_eq (s : State) :
    hostReset s = { (State.reset) with diag := s.diag, cfg := s.cfg, pending := s.pending } := rfl

end Sys2Proof.Machine
end

