-- ==== Sys2Proof/Laws/PerInstr.lean ====
section
/-! SUPPORT. The per-command family `RowFields`: a command's word is a word of its own row of the opcode map (R47, R48). -/

namespace Sys2Proof.Laws

/-- The word of fields meets a mask and match when the fields do. -/
theorem admits_packWord {m : String} {pop pa : BitVec 8} {pimm : BitVec 16} {mop ma : BitVec 8} {mimm : BitVec 16}
    {op a : BitVec 8} {imm : BitVec 16} (hop : op &&& mop = pop) (ha : a &&& ma = pa) (himm : imm &&& mimm = pimm) :
    OpRow.admits ⟨m, packWord pop pa pimm, packWord mop ma mimm⟩ (packWord op a imm) = true := by
  simp only [OpRow.admits, packWord_and, hop, ha, himm, decide_true]

/-- The encoding of a command is a word of the row of R47 with its mnemonic: unused fields zero, selector 0 to 3. -/
def RowFields.Statement (i : Instr) : Prop :=
  ∃ r ∈ opcodeMap, r.mnemonic = i.mnemonic ∧ r.admits (encode i) = true

theorem RowFields.bpclr : RowFields.Statement .bpclr :=
  ⟨⟨"BPCLR", 0x10000000, 0xFFFFFFFF⟩, by decide, rfl, by decide⟩

theorem RowFields.bpapp (w v : Nat) : RowFields.Statement (.bpapp w v) :=
  ⟨⟨"BPAPP", 0x11000000, 0xFF000000⟩, by decide, rfl,
    admits_packWord (pop := 0x11) (pa := 0) (pimm := 0) (mop := 0xFF) (ma := 0) (mimm := 0) rfl BitVec.and_zero BitVec.and_zero⟩

theorem RowFields.bpsnap (n : Nat) : RowFields.Statement (.bpsnap n) :=
  ⟨⟨"BPSNAP", 0x12000000, 0xFFFF0000⟩, by decide, rfl,
    admits_packWord (pop := 0x12) (pa := 0) (pimm := 0) (mop := 0xFF) (ma := 0xFF) (mimm := 0) rfl rfl BitVec.and_zero⟩

theorem RowFields.cksum (b : Buf) : RowFields.Statement (.cksum b) :=
  ⟨⟨"CKSUM", 0x20000000, 0xFFFCFFFF⟩, by decide, rfl, by cases b <;> decide⟩

theorem RowFields.fbuild : RowFields.Statement .fbuild :=
  ⟨⟨"FBUILD", 0x30000000, 0xFFFFFFFF⟩, by decide, rfl, by decide⟩

theorem RowFields.fparse (b : Buf) : RowFields.Statement (.fparse b) :=
  ⟨⟨"FPARSE", 0x31000000, 0xFFFCFFFF⟩, by decide, rfl, by cases b <;> decide⟩

theorem RowFields.hexparse (b : Buf) : RowFields.Statement (.hexparse b) :=
  ⟨⟨"HEXPARSE", 0x40000000, 0xFFFCFFFF⟩, by decide, rfl, by cases b <;> decide⟩

theorem RowFields.bufclr (b : Buf) : RowFields.Statement (.bufclr b) :=
  ⟨⟨"BUFCLR", 0x50000000, 0xFFFCFFFF⟩, by decide, rfl, by cases b <;> decide⟩

theorem RowFields.bufpush (b : Buf) (x : Byte) : RowFields.Statement (.bufpush b x) :=
  ⟨⟨"BUFPUSH", 0x51000000, 0xFFFCFF00⟩, by decide, rfl, by
    refine admits_packWord (pop := 0x51) (pa := 0) (pimm := 0) (mop := 0xFF) (ma := 0xFC) (mimm := 0xFF00) rfl ?_ ?_
    · cases b <;> rfl
    · revert x; decide⟩

theorem RowFields.bufcat (b : Buf) : RowFields.Statement (.bufcat b) :=
  ⟨⟨"BUFCAT", 0x52000000, 0xFFFCFFFF⟩, by decide, rfl, by cases b <;> decide⟩

end Sys2Proof.Laws
end

