-- ==== Sys2Proof/Laws/Safety.lean ====
section
/-! SUPPORT. Capacities as propositions. -/

namespace Sys2Proof.Machine

/-- Everything is within `inf` (R5). -/
@[simp] theorem within_inf (n : Nat) : Within .inf n := by
  intro k h; cases h

/-- A finite capacity (R5). -/
@[simp] theorem within_bounded (c n : Nat) : Within (.bounded c) n ↔ n ≤ c := by
  constructor
  · intro h; exact h c rfl
  · intro h k hk; cases hk; exact h

/-- `Within` is the capacity test (R126). -/
theorem within_iff_fits (c : Cap) (n : Nat) : Within c n ↔ fits c n = true := (fits_iff c n).symm

end Sys2Proof.Machine
end

