-- ==== Sys2Proof/Laws/Units.lean ====
section
/-! SUPPORT. What the units' shared operations do: the packing loop, append, the buffer append, tokens. -/

namespace Sys2Proof.Machine

/-- The loop of R66 with nothing left pushes nothing. -/
@[simp] theorem packLoop_zero (fuel : Nat) (g : Group) (used v : Nat) : packLoop fuel g used v 0 = [] := by
  cases fuel <;> simp [packLoop]

/-- The loop of R66 runs `ceil((used + rem) / 7)` times. -/
theorem packLoop_length (fuel : Nat) :
    ∀ (g : Group) (used v rem : Nat), used < 7 → 0 < rem → rem ≤ fuel →
      (packLoop fuel g used v rem).length = (used + rem + 6) / 7 := by
  induction fuel with
  | zero => intro g used v rem _ h1 h2; omega
  | succ fuel ih =>
    intro g used v rem hu hr hf
    simp only [packLoop, groupWidth, Nat.ne_of_gt hr, if_false, List.length_cons]
    rcases Nat.eq_zero_or_pos (rem - min rem (7 - used)) with h0 | h0
    · rw [h0, packLoop_zero]; simp; omega
    · rw [ih _ _ _ _ (by omega) h0 (by omega)]; omega

/-- Append adds the width to the bit count, a width of 0 included (R66, R76). -/
@[simp] theorem bpAppend_total (groups : List Group) (total value width : Nat) :
    (bpAppend groups total value width).2 = total + width := by
  unfold bpAppend
  split
  · simp [*]
  · dsimp only; split <;> rfl

/-- Appending to an input buffer: all of it, or nothing but the error (R114, R115). -/
theorem appendBuf_cases (b : Buf) (bytes : List Byte) (s : State) :
    (fits s.cfg.bufCap ((s.buf b).length + bytes.length) = true
        ∧ appendBuf b bytes s = .next (succeed (s.setBuf b (s.buf b ++ bytes))))
      ∨ (fits s.cfg.bufCap ((s.buf b).length + bytes.length) = false
        ∧ appendBuf b bytes s = .next (raiseError .plain .capacityExceeded s)) := by
  unfold appendBuf
  split <;> simp_all

/-- A group as a byte keeps its value (R31). -/
@[simp] theorem groupByte_toNat (g : Group) : (groupByte g).toNat = g.toNat := by
  simp [groupByte]; omega

/-- A bit within the groups is the bit of its group (R17). -/
theorem bpBit_of_lt (groups : List Group) (i : Nat) (h : i / 7 < groups.length) :
    bpBit groups i = groups[i / 7].getLsbD (i % 7) := by
  simp [bpBit, h]

/-- The bits of the groups before stay when groups are added behind them (R67, R75). -/
theorem bpBit_append_of_lt (groups more : List Group) (i : Nat) (h : i / 7 < groups.length) :
    bpBit (groups ++ more) i = bpBit groups i := by
  rw [bpBit_of_lt _ _ h, bpBit_of_lt _ _ (by simp; omega), List.getElem_append_left h]

/-- Whitespace ends a token (R104). -/
theorem tokensFrom_space (token cs : List Byte) (c : Byte) (h : isWhitespace c = true) :
    tokensFrom token (c :: cs) = flushToken token ++ tokensFrom [] cs := by
  simp [tokensFrom, h]

/-- Every other character goes on with the token (R104). -/
theorem tokensFrom_char (token cs : List Byte) (c : Byte) (h : isWhitespace c = false) :
    tokensFrom token (c :: cs) = tokensFrom (token ++ [c]) cs := by
  simp [tokensFrom, h]

end Sys2Proof.Machine
end

