-- ==== Sys2Proof/Tests/Slice0.lean ====
section
/-! SUPPORT. Tests: words decoded, the well-formedness smoke, one-step tests from the vectors of spec/95_test_vectors.md (the
vector's name stands beside each), and a witness for the hypotheses of every statement. -/

namespace Sys2Proof.Tests

open Sys2Proof Sys2Proof.Machine

/-- What one field of the next state holds. -/
def see {α : Type} (f : State → α) : Result → Option α
  | .next t => some (f t)
  | _ => none

/-- A state with four buffers, the rest as after reset. -/
def withBuffers (m s d p : List Byte) : State := { State.reset with bufM := m, bufS := s, bufD := d, bufP := p }

/-- The parameters of section 2.10: `BUF_CAP = 4`, `BP_CAP = 2`. -/
def small : Config := { bufCap := .bounded 4, bpCap := .bounded 2 }

/-- A state with `P` given, under the small capacities. -/
def smallP (p : List Byte) : State := { State.resetWith small with bufP := p }

/-- A state with an accumulator given, under the small capacities. -/
def smallBp (groups : List Group) (total : Nat) : State := { State.resetWith small with bpG := groups, bpTB := total }

/-! ### Well-formedness smoke: one ill-formed term for each check -/

theorem test_wf_refuses_wide_width : Instr.wellFormed (.bpapp 256 0) = false := by decide
theorem test_wf_refuses_wide_value : Instr.wellFormed (.bpapp 0 65536) = false := by decide
theorem test_wf_refuses_wide_minGroups : Instr.wellFormed (.bpsnap 65536) = false := by decide

/-! ### Decoding: words written out from R47 and R52 (op, a, imm) -/

theorem test_decode_bpclr : decode 0x10000000 = .ok .bpclr := by rfl
theorem test_decode_bpapp : decode 0x110901FF = .ok (.bpapp 9 0x1FF) := by rfl
theorem test_decode_bpsnap : decode 0x12000008 = .ok (.bpsnap 8) := by rfl
theorem test_decode_cksum : decode 0x20030000 = .ok (.cksum .p) := by rfl
theorem test_decode_fbuild : decode 0x30000000 = .ok .fbuild := by rfl
theorem test_decode_fparse : decode 0x31020000 = .ok (.fparse .d) := by rfl
theorem test_decode_hexparse : decode 0x40010000 = .ok (.hexparse .s) := by rfl
theorem test_decode_bufclr : decode 0x50000000 = .ok (.bufclr .m) := by rfl
theorem test_decode_bufpush : decode 0x51030020 = .ok (.bufpush .p 0x20) := by rfl
theorem test_decode_bufcat : decode 0x52030000 = .ok (.bufcat .p) := by rfl
/-- X3, X4, X5 and X1: the four causes of R49. -/
theorem test_decode_refuses_unused_field : decode 0x10000001 = .error .unusedFieldNonzero := by rfl
theorem test_decode_refuses_selector : decode 0x20040000 = .error (.selectorOutOfRange 4) := by rfl
theorem test_decode_refuses_push_byte : decode 0x51030100 = .error (.pushByteOutOfRange 0x0100) := by rfl
theorem test_decode_refuses_opcode : decode 0x00000000 = .error (.unknownOpcode 0) := by rfl
/-- R47: the rows do not overlap: two rows differ in a bit that both masks hold. -/
theorem test_rows_do_not_overlap :
    opcodeMap.Pairwise fun r r' => r.pattern &&& r'.mask &&& r.mask ≠ r'.pattern &&& r.mask &&& r'.mask := by decide
theorem test_table_word : decodeTableWord 32 0x52030000 = some (.bufcat .p) := by rfl

/-! ### The assembler (R52, R53): the examples of R52 and a line of program 2 -/

theorem test_assemble_bpapp : assembleWords "BPAPP 9, 0x1FF ; pack".toList = some [0x110901FF] := by decide
theorem test_assemble_bufset : assembleWords "BUFSET S, 0x77".toList = some [0x50010000, 0x51010077] := by decide

/-! ### One step each -/

/-- X3 with the state of section 2.9: the error is recorded, `HBD` cleared, `O` kept. -/
theorem test_illegal_word_keeps_output :
    see (fun t => (t.status, t.okind, t.out))
        (step (State.issueNext { State.reset with out := [109], okind := .sum, status := 0x0100 } 0x10000001))
      = some (0x0010, .sum, [109]) := by decide
/-- R141: reset keeps the trace and clears the rest. -/
theorem test_reset_keeps_trace :
    see (fun t => (t.bufP, t.diag)) (step { withBuffers [] [] [] [1] with diag := [.frameDump [0x30]], pending := [.reset] })
      = some ([], [.frameDump [0x30]]) := by decide
/-- R69's example. -/
theorem test_bpclr : see (fun t => (t.bpG, t.bpTB)) (exec .bpclr { State.reset with bpG := [127], bpTB := 7 }) = some ([], 0) := by
  decide
/-- B5, second append: bits enter a partly used group. -/
theorem test_bpapp_fills_last_group :
    see (fun t => (t.bpG, t.bpTB)) (exec (.bpapp 9 0x1FF) { State.reset with bpG := [5], bpTB := 3 }) = some ([125, 31], 12) := by
  decide
/-- B6: a value wider than its width is cut (C1). -/
theorem test_bpapp_cuts_value : see (fun t => (t.bpG, t.status)) (exec (.bpapp 4 0xFF) State.reset) = some ([15], 0x0000) := by
  decide
/-- S7. -/
theorem test_bpsnap_pads :
    see (fun t => (t.out, t.okind, t.bpG)) (exec (.bpsnap 3) { State.reset with bpG := [127, 1], bpTB := 8 })
      = some ([127, 1, 0], .groups, [127, 1]) := by decide
/-- CP4. -/
theorem test_bpsnap_capacity :
    see (fun t => (t.out, t.okind, t.status)) (exec (.bpsnap 8) { smallBp [127, 127] 14 with out := [9], okind := .sum })
      = some ([], .none, 0x0011) := by decide
/-- K10. -/
theorem test_cksum : see (fun t => (t.out, t.okind)) (exec (.cksum .p) (withBuffers [] [] [] [0, 0, 0, 0, 32, 0, 0]))
    = some ([109], .sum) := by decide
/-- K7: a byte above 0x7F is folded in, not refused. -/
theorem test_cksum_high_byte : see (fun t => (t.out, t.status)) (exec (.cksum .p) (withBuffers [] [] [] [255]))
    = some ([2], 0x0000) := by decide
/-- FB4. -/
theorem test_fbuild : see (fun t => (t.out, t.status)) (exec .fbuild (withBuffers [0x00, 0x21, 0x10] [0x77] [0x37] [1, 2]))
    = some ([0x00, 0x21, 0x10, 0x77, 0x37, 0x01, 0x02, 0x17], 0x0000) := by decide
/-- R91's form of the dump, on FB3's tail `37 00`. -/
theorem test_hexdump : hexdump [0x37, 0x00] = [0x33, 0x37, 0x20, 0x30, 0x30] := by decide
/-- CP7: `InvalidPayload` is told before `CapacityExceeded`; no event. -/
theorem test_fbuild_priority :
    see (fun t => (t.out, t.status, t.diag)) (exec .fbuild { smallP [1, 2, 3, 4] with bufM := [0x80], out := [7] })
      = some ([], 0x0001, []) := by decide
/-- F0. -/
theorem test_fparse_heartbeat : see (fun t => (t.status, t.diag)) (exec (.fparse .p) (withBuffers [] [] [] heartbeat))
    = some (0x0100, []) := by decide
/-- F8. -/
theorem test_fparse_fields :
    see State.diag (exec (.fparse .p) (withBuffers [] [] [] [1, 2, 3, 4, 5, 9, 12]))
      = some [.decoded (.fields [1, 2, 3] [4] [5] [9] 12 true)] := by decide
/-- H5: `" f0\t7F\n80 "`. -/
theorem test_hexparse :
    see State.out (exec (.hexparse .p) (withBuffers [] [] [] [32, 102, 48, 9, 55, 70, 10, 56, 48, 32]))
      = some [0xF0, 0x7F, 0x80] := by decide
/-- H9: `"123"`. -/
theorem test_hexparse_refuses :
    see (fun t => (t.out, t.okind, t.status)) (exec (.hexparse .p) { withBuffers [] [] [] [0x31, 0x32, 0x33] with out := [1] })
      = some ([], .none, 0x0002) := by decide
/-- BF2. -/
theorem test_bufclr : see (fun t => (t.bufM, t.bufP)) (exec (.bufclr .p) (withBuffers [9] [] [] [1, 2, 3])) = some ([9], []) := by
  decide
/-- BF1. -/
theorem test_bufpush : see State.bufM (exec (.bufpush .m 0x21) (withBuffers [0x00] [] [] [])) = some [0x00, 0x21] := by decide
/-- BF7. -/
theorem test_bufpush_capacity : see (fun t => (t.bufP, t.status)) (exec (.bufpush .p 5) (smallP [1, 2, 3, 4]))
    = some ([1, 2, 3, 4], 0x0011) := by decide
/-- BF5, second command. -/
theorem test_bufcat : see State.bufP (exec (.bufcat .p) { withBuffers [] [] [] [1, 2] with out := [2] }) = some [1, 2, 2] := by
  decide
/-- BF8. -/
theorem test_bufcat_capacity :
    see (fun t => (t.bufP, t.out, t.status)) (exec (.bufcat .p) { smallP [1, 2, 3, 4] with out := [36] })
      = some ([1, 2, 3, 4], [36], 0x0011) := by decide
/-- B23 and U2: unpack. -/
theorem test_unpack : bpUnpack [126, 21, 123, 85, 11] [16, 16] = [0xCAFE, 0xBABE] := by decide
/-- The host's placement of a word: the next step runs it. -/
theorem test_withFetchWord : step (State.reset.withFetchWord 32 0x110800FF) = exec (.bpapp 8 0xFF) State.reset := by rfl

/-! ### Witnesses: a state and operands that meet the hypotheses of each statement -/

theorem witness_DecodeOfEncodeIsTheCommand : Instr.wellFormed (.bpapp 255 65535) = true ∧ Instr.wellFormed (.bpsnap 65535) = true := by decide
theorem witness_EncodeOfDecodeIsTheWord : decode 0x11FFFFFF = .ok (.bpapp 255 65535) := by rfl
theorem witness_StepRunsTheDecodedCommand :
    (State.reset.issueNext 0x10000000).pending = .command 0x10000000 :: [] ∧ decode 0x10000000 = .ok .bpclr := ⟨rfl, rfl⟩
theorem witness_IllegalWordsChangeOnlyStatus :
    (State.reset.issueNext 0x20040000).pending = .command 0x20040000 :: [] ∧ ∀ r ∈ opcodeMap, r.admits 0x20040000 = false := by decide
theorem witness_StepIdlesWithNothingPending : State.reset.pending = [] := by rfl
theorem witness_IssuedInputIsTakenNext : (smallP [1]).pending = [] := by rfl
theorem witness_ResetInputClearsTheBlock : (State.reset.setPending [.reset]).pending = .reset :: [] := by rfl
/-- The greatest operands the encoding admits. -/
theorem witness_BpappAppendsOrRefuses_encoding : 255 < 256 ∧ 65535 < 65536 := by decide
/-- CP1: exactly full. -/
theorem witness_BpappAppendsOrRefuses_fits : Within (smallBp [] 0).cfg.bpCap ((0 + 14 + 6) / 7) := (within_bounded 2 _).2 (by decide)
/-- CP2: one bit too many. -/
theorem witness_BpappAppendsOrRefuses_full : (smallBp [127, 127] 14).cfg.bpCap = .bounded 2 ∧ 2 < (14 + 1 + 6) / 7 := by decide
theorem witness_BpappAddsTheValueBits : BpInv (smallBp [5] 3).bpG (smallBp [5] 3).bpTB ∧ Within (smallBp [5] 3).cfg.bpCap ((3 + 9 + 6) / 7) :=
  ⟨by decide, (within_bounded 2 _).2 (by decide)⟩
theorem witness_AppendHasItsClosedForm : BpInv [5] 3 ∧ BpInv [] 0 ∧ BpInv [127] 7 := by decide
/-- Both ends of the range of the split point. -/
theorem witness_SplittingLaw : BpInv [5] 3 ∧ 0 ≤ 9 ∧ 9 ≤ 9 := by decide
theorem witness_GroupCountAfterAppends :
    State.reset.bpG = [] ∧ State.reset.bpTB = 0 ∧ State.reset.cfg.bpCap = .inf ∧ State.reset.cfg.bufCap = .inf := by decide
theorem witness_BpsnapCopiesThePaddedGroups_fits : Within (smallBp [127, 1] 8).cfg.bufCap (max 2 4) := (within_bounded 4 _).2 (by decide)
theorem witness_BpsnapCopiesThePaddedGroups_full : (smallBp [127, 1] 8).cfg.bufCap = .bounded 4 ∧ 4 < max 2 5 := by decide
theorem witness_SnapshotPayloadIsNeverInvalid :
    let s := { State.reset with bufP := [0x7F], out := [127, 1], okind := .groups, bpG := [127, 1], bpTB := 8 }
    s.Inv ∧ s.okind = .groups ∧ ∀ b, ∀ x ∈ s.buf b, x.toNat ≤ 0x7F := by
  refine ⟨⟨by decide, by decide, by decide, ?_⟩, rfl, ?_⟩
  · exact ⟨fun b => within_inf _, within_inf _, within_inf _⟩
  · intro b; cases b <;> decide
theorem witness_OneChangedByteIsDetected : (0x00 : Byte) ≠ 0x7F ∧ (0x00 : Byte).toNat ≤ 0x7F ∧ (0x7F : Byte).toNat ≤ 0x7F := by decide
theorem witness_CksumWritesTheChecksum_fits : Within (.bounded 1) 1 := (within_bounded 1 1).2 (by decide)
theorem witness_CksumWritesTheChecksum_full : (State.resetWith { bufCap := .bounded 0 }).cfg.bufCap = .bounded 0 := by rfl
/-- A byte of exactly 0x7F, a frame of exactly `BUF_CAP` bytes. -/
theorem witness_FbuildBuildsOrRefuses_builds :
    let s := smallP [1, 2, 0x7F]
    (∀ x ∈ s.buf .m ++ s.buf .s ++ s.buf .d ++ s.buf .p, x.toNat ≤ 0x7F) ∧ Within s.cfg.bufCap (3 + 1) :=
  ⟨by decide, (within_bounded 4 _).2 (by decide)⟩
/-- A byte of exactly 0x80. -/
theorem witness_FbuildBuildsOrRefuses_invalid :
    let s := smallP [1, 0x80]
    ∃ x ∈ s.buf .m ++ s.buf .s ++ s.buf .d ++ s.buf .p, 0x7F < x.toNat := ⟨0x80, by decide, by decide⟩
theorem witness_FbuildBuildsOrRefuses_full :
    let s := smallP [1, 2, 3, 4]
    (∀ x ∈ s.buf .m ++ s.buf .s ++ s.buf .d ++ s.buf .p, x.toNat ≤ 0x7F) ∧ s.cfg.bufCap = .bounded 4
      ∧ 4 < (s.buf .m ++ s.buf .s ++ s.buf .d ++ s.buf .p).length + 1 := by decide
theorem witness_BuiltFramesAreClean : ∃ t, exec .fbuild State.reset = .next t ∧ t.code = okCode := ⟨_, rfl, by decide⟩
theorem witness_FparseDiscardsOrLogs_heartbeat :
    (withBuffers [] [] [] heartbeat).buf .p = [0, 33, 16, 119, 102, 0, 0, 0, 0, 32, 0, 0, 109] := by rfl
/-- F6: exactly `H + 1` bytes, an empty payload. -/
theorem witness_FparseDiscardsOrLogs_fields :
    let s := withBuffers [] [] [] [1, 2, 3, 4, 5, 3]
    s.buf .p ≠ [0, 33, 16, 119, 102, 0, 0, 0, 0, 32, 0, 0, 109] ∧ [1, 2, 3].length = s.cfg.mfrLen ∧ [4].length = s.cfg.subLen
      ∧ [5].length = s.cfg.devLen ∧ s.buf .p = [1, 2, 3] ++ [4] ++ [5] ++ [] ++ [3] := by decide
/-- F5: exactly `H` bytes. -/
theorem witness_FparseDiscardsOrLogs_short :
    let s := withBuffers [] [] [] [1, 2, 3, 4, 5]
    s.buf .p ≠ [0, 33, 16, 119, 102, 0, 0, 0, 0, 32, 0, 0, 109]
      ∧ (s.buf .p).length < s.cfg.mfrLen + s.cfg.subLen + s.cfg.devLen + 1 := by decide
theorem witness_FparseDiscardsOrLogs_onlyOne :
    ∃ t, exec (.fparse .p) (withBuffers [] [] [] heartbeat) = .next t ∧ t.hbd = true := ⟨_, rfl, by decide⟩
theorem witness_ParseOfBuiltFrame :
    buildFrame [1, 2, 3] [4] [5] [] = .ok [1, 2, 3, 4, 5, 0] ∧ [1, 2, 3].length = Config.default.mfrLen
      ∧ [4].length = Config.default.subLen ∧ [5].length = Config.default.devLen ∧ [1, 2, 3, 4, 5, 0] ≠ heartbeat :=
  ⟨by rfl, by decide⟩
/-- `" A b"`: whitespace before, a piece, and a last run; and no last run. -/
theorem witness_TokensAreTheMaximalRuns :
    (∀ c ∈ ([0x20] : List Byte), isWhitespace c = true) ∧ (∀ c ∈ ([0x62] : List Byte), isWhitespace c = false)
      ∧ (∀ c ∈ ([] : List Byte), isWhitespace c = false)
      ∧ ∀ p ∈ ([([0x41], [0x0D])] : List (List Byte × List Byte)),
          p.1 ≠ [] ∧ (∀ c ∈ p.1, isWhitespace c = false) ∧ p.2 ≠ [] ∧ ∀ c ∈ p.2, isWhitespace c = true := by decide
/-- H15's beginning, `"A b"`. -/
theorem witness_HexparseReadsOrRefuses_reads :
    (tokens ((withBuffers [] [] [] [0x41, 0x20, 0x62]).buf .p)).map (tokenValue true) = [0x0A, 0x0B].map some := by decide
/-- H10: `"6d"` without lower-case digits. -/
theorem witness_HexparseReadsOrRefuses_refuses : ∃ t ∈ tokens ([0x36, 0x64] : List Byte), tokenValue false t = none :=
  ⟨[0x36, 0x64], by decide, by decide⟩
theorem witness_HexparseOfDumpGivesTheBytes : (withBuffers [] [] [] [0x38, 0x30, 0x20, 0x30, 0x31]).buf .p = hexdump [0x80, 0x01] := by decide
/-- The last byte of a dump, and one with a byte behind it. -/
theorem witness_HexdumpHasItsForm :
    ([0x2F, 0xA0] : List Byte)[1]? = some 0xA0 ∧ ([0x2F, 0xA0] : List Byte)[0]? = some 0x2F
      ∧ 0 + 1 < ([0x2F, 0xA0] : List Byte).length := by decide
theorem witness_BufpushAppendsOneByte_word : (0x51030100 : Word).extractLsb' 24 8 = 0x51 ∧ (0x51030100 : Word).extractLsb' 8 8 ≠ 0 := by decide
theorem witness_BufpushAppendsOneByte_fits : Within (smallP [1, 2, 3]).cfg.bufCap (((smallP [1, 2, 3]).buf .p).length + 1) :=
  (within_bounded 4 _).2 (by decide)
theorem witness_BufpushAppendsOneByte_full :
    (smallP [1, 2, 3, 4]).cfg.bufCap = .bounded 4 ∧ 4 < ((smallP [1, 2, 3, 4]).buf .p).length + 1 := by decide
theorem witness_BufcatAppendsTheOutput_fits :
    let s := { smallP [1, 2, 3] with out := [36] }
    Within s.cfg.bufCap ((s.buf .p).length + s.out.length) := (within_bounded 4 _).2 (by decide)
theorem witness_BufcatAppendsTheOutput_full :
    let s := { smallP [1, 2, 3, 4] with out := [36] }
    s.cfg.bufCap = .bounded 4 ∧ 4 < (s.buf .p).length + s.out.length := by decide
theorem witness_BufcatAfterFailedSnapshot :
    (smallP [1, 2, 3, 4]).cfg.bufCap = .bounded 4 ∧ 4 < max (smallP [1, 2, 3, 4]).bpG.length 5
      ∧ ((smallP [1, 2, 3, 4]).buf .p).length ≤ 4 := by decide
/-- A producer's error and a plain command's error. -/
theorem witness_ErrorEntryChangesNothingElse_producer : ∃ t, runWord 0x12000008 (smallP []) = .next t ∧ t.code ≠ 0x00 := ⟨_, rfl, by decide⟩
theorem witness_ErrorEntryChangesNothingElse_plain : ∃ t, runWord 0x51030005 (smallP [1, 2, 3, 4]) = .next t ∧ t.code ≠ 0x00 := ⟨_, rfl, by decide⟩
theorem witness_StatusIsOverwrittenWhole : ∃ t, runWord 0x31030000 (withBuffers [] [] [] heartbeat) = .next t ∧ t.status = 0x0100 :=
  ⟨_, rfl, by decide⟩
/-- Each error code is reached. -/
theorem witness_StatusCodesAndWhoRaisesThem_invalidPayload : ∃ t, runWord 0x30000000 (smallP [0x80]) = .next t ∧ t.code = 0x01 := ⟨_, rfl, by decide⟩
theorem witness_StatusCodesAndWhoRaisesThem_malformedHex : ∃ t, runWord 0x40030000 (smallP [0x47]) = .next t ∧ t.code = 0x02 := ⟨_, rfl, by decide⟩
theorem witness_StatusCodesAndWhoRaisesThem_illegal : ∃ t, runWord 0xFFFFFFFF State.reset = .next t ∧ t.code = 0x10 := ⟨_, rfl, by decide⟩
theorem witness_StatusCodesAndWhoRaisesThem_capacity : ∃ t, runWord 0x11FFFFFF (smallBp [] 0) = .next t ∧ t.code = 0x11 := ⟨_, rfl, by decide⟩
/-- A successful producer of each kind, and a word that is no producer. -/
theorem witness_OutputKindNamesTheProducer :
    (∃ t, runWord 0x12000008 State.reset = .next t ∧ t.code = okCode) ∧ (∃ t, runWord 0x20000000 State.reset = .next t ∧ t.code = okCode)
      ∧ (∃ t, runWord 0x30000000 State.reset = .next t ∧ t.code = okCode) ∧ (∃ t, runWord 0x40000000 State.reset = .next t ∧ t.code = okCode)
      ∧ producerWord 0x12000008 = true ∧ producerWord 0x12010008 = false :=
  ⟨⟨_, rfl, by decide⟩, ⟨_, rfl, by decide⟩, ⟨_, rfl, by decide⟩, ⟨_, rfl, by decide⟩, rfl, rfl⟩
theorem witness_OutputKindNamesTheProducer_fails :
    ∃ t, runWord 0x12000008 (smallP []) = .next t ∧ producerWord 0x12000008 = true ∧ t.code ≠ okCode := ⟨_, rfl, rfl, by decide⟩
/-- The three cases of the trace: a dump, an entry, nothing. -/
theorem witness_TraceIsAppendedToAndNeverRead :
    (∃ t, runWord 0x30000000 State.reset = .next t ∧ t.diag = [.frameDump [0x30, 0x30]])
      ∧ (∃ t, runWord 0x31030000 State.reset = .next t ∧ t.diag = [.decoded (.short [])])
      ∧ ∃ t, runWord 0x31030000 (withBuffers [] [] [] heartbeat) = .next t ∧ t.diag = [] :=
  ⟨⟨_, rfl, by decide⟩, ⟨_, rfl, by decide⟩, ⟨_, rfl, by decide⟩⟩
theorem witness_AccumulatorAndBuffersShareNothing :
    (Instr.cksum .p ≠ .bpclr ∧ (∀ w v, Instr.cksum .p ≠ .bpapp w v) ∧ (∀ n, Instr.cksum .p ≠ .bpsnap n)
        ∧ ∃ t, exec (.cksum .p) State.reset = .next t)
      ∧ ∃ t, exec (.bpapp 8 0xFF) State.reset = .next t :=
  ⟨⟨by simp, by simp, by simp, _, rfl⟩, _, rfl⟩
/-- An element of an input buffer, and a group before the last, with a word that runs. -/
theorem witness_InputBufferBytesAndEarlierGroupsStay :
    let s := { smallBp [127, 1] 8 with bufP := [7] }
    s.elem (.input .p) 0 = some 7 ∧ s.elem .groups 0 = some 127 ∧ 0 + 1 < s.bpG.length ∧ ∃ t, runWord 0x11010001 s = .next t :=
  ⟨rfl, rfl, by decide, _, rfl⟩
theorem witness_EveryStepKeepsTheInvariant :
    (smallBp [5] 3).Inv ∧ ∃ t, step ((smallBp [5] 3).issueNext 0x110901FF) = .next t := by
  refine ⟨⟨by decide, by decide, by decide, fun b => ?_, ?_, ?_⟩, _, rfl⟩
  · cases b <;> exact (within_bounded 4 _).2 (by decide)
  · exact (within_bounded 4 _).2 (by decide)
  · exact (within_bounded 2 _).2 (by decide)
theorem witness_BpappwIsOneWideAppend : BpInv State.reset.bpG State.reset.bpTB ∧ State.reset.cfg.bpCap = .inf := by decide
theorem witness_BufsetLoadsTheBuffer : Within (smallP [9]).cfg.bufCap ([1, 2, 3, 4] : List Byte).length := (within_bounded 4 _).2 (by decide)

end Sys2Proof.Tests
end

section
/-! PROOF. The fields after success and error entry, and how those and the commands read nothing of `STATUS`. -/

namespace Sys2Proof.Machine

@[simp] theorem succeed_code (s : State) : (succeed s).code = okCode := code_setStatus s okCode false
@[simp] theorem succeed_hbd (s : State) : (succeed s).hbd = false := hbd_setStatus s okCode false
@[simp] theorem succeed_out (s : State) : (succeed s).out = s.out := rfl
@[simp] theorem succeed_okind (s : State) : (succeed s).okind = s.okind := rfl
@[simp] theorem succeed_diag (s : State) : (succeed s).diag = s.diag := rfl

@[simp] theorem produce_code (bytes : List Byte) (kind : OKind) (s : State) : (produce bytes kind s).code = okCode :=
  succeed_code _
@[simp] theorem produce_hbd (bytes : List Byte) (kind : OKind) (s : State) : (produce bytes kind s).hbd = false :=
  succeed_hbd _
@[simp] theorem produce_out (bytes : List Byte) (kind : OKind) (s : State) : (produce bytes kind s).out = bytes := rfl
@[simp] theorem produce_okind (bytes : List Byte) (kind : OKind) (s : State) : (produce bytes kind s).okind = kind := rfl
@[simp] theorem produce_diag (bytes : List Byte) (kind : OKind) (s : State) : (produce bytes kind s).diag = s.diag := rfl

@[simp] theorem raiseError_code (who : CommandClass) (e : ErrorName) (s : State) :
    (raiseError who e s).code = errorCode e := by
  cases who <;> exact code_setStatus _ _ _

@[simp] theorem raiseError_hbd (who : CommandClass) (e : ErrorName) (s : State) : (raiseError who e s).hbd = false := by
  cases who <;> exact hbd_setStatus _ _ _

@[simp] theorem raiseError_diag (who : CommandClass) (e : ErrorName) (s : State) :
    (raiseError who e s).diag = s.diag := by
  cases who <;> rfl

@[simp] theorem raiseError_plain_out (e : ErrorName) (s : State) : (raiseError .plain e s).out = s.out := rfl
@[simp] theorem raiseError_plain_okind (e : ErrorName) (s : State) : (raiseError .plain e s).okind = s.okind := rfl
@[simp] theorem raiseError_producer_out (e : ErrorName) (s : State) : (raiseError .producer e s).out = [] := rfl
@[simp] theorem raiseError_producer_okind (e : ErrorName) (s : State) : (raiseError .producer e s).okind = .none := rfl

/-- No error has the code of success (R122). -/
@[simp] theorem errorCode_ne_okCode (e : ErrorName) : errorCode e ≠ okCode := by
  cases e <;> decide

end Sys2Proof.Machine
end

section
/-! PROOF. What the units' functions answer, as far as the outcome of a command depends on it. -/

namespace Sys2Proof.Machine

/-- Only the heartbeat is discarded (R96). -/
theorem parseFrame_eq_discard_iff (cfg : Config) (raw : List Byte) : parseFrame cfg raw = .discard ↔ raw = heartbeat := by
  unfold parseFrame
  split
  · simp [*]
  · split <;> simp [*]

/-- What is logged is not the heartbeat (R96 to R98). -/
theorem ne_heartbeat_of_parseFrame_log {cfg : Config} {raw : List Byte} {entry : LogEntry}
    (h : parseFrame cfg raw = .log entry) : raw ≠ heartbeat := fun hraw => by
  simp [(parseFrame_eq_discard_iff cfg raw).2 hraw] at h

/-- A built frame is the clean operands and the checksum of the payload (R88). -/
theorem buildFrame_eq_ok_iff (m s d p frame : List Byte) :
    buildFrame m s d p = .ok frame
      ↔ clean7 (m ++ s ++ d ++ p) = true ∧ m ++ s ++ d ++ p ++ [checksumByte p] = frame := by
  unfold buildFrame
  split <;> simp [*, -List.append_assoc]

/-- The one error of the frame builder (R89). -/
theorem buildFrame_error {m s d p : List Byte} {e : ErrorName} (h : buildFrame m s d p = .error e) : e = .invalidPayload := by
  unfold buildFrame at h
  split at h <;> cases h
  rfl

/-- The one error of the hex parser (R106). -/
theorem parseHex_error {lower : Bool} {text : List Byte} {e : ErrorName} (h : parseHex lower text = .error e) :
    e = .malformedHex := by
  unfold parseHex at h
  split at h <;> cases h
  rfl

/-- The 7-bit test is that of every byte (R89). -/
theorem clean7_iff (bytes : List Byte) : clean7 bytes = true ↔ ∀ x ∈ bytes, x.toNat ≤ 0x7F := by
  simp [clean7]

/-- The checksum byte has bit 7 clear (R80, R83). -/
theorem checksumByte_le (payload : List Byte) : (checksumByte payload).toNat ≤ 0x7F := by
  have : checksum payload < 128 := Nat.mod_lt _ (by decide)
  simp only [checksumByte, BitVec.toNat_ofNat]
  omega

/-- The bytes of a snapshot have bit 7 clear (R31, R71). -/
theorem groupByte_le (g : Group) : (groupByte g).toNat ≤ 0x7F := by
  have := g.isLt
  rw [groupByte_toNat]
  omega

/-- The bytes of a frame have bit 7 clear (R89, R92). -/
theorem buildFrame_bytes_le {m s d p frame : List Byte} (h : buildFrame m s d p = .ok frame) :
    ∀ x ∈ frame, x.toNat ≤ 0x7F := by
  obtain ⟨hclean, rfl⟩ := (buildFrame_eq_ok_iff m s d p frame).1 h
  intro x hx
  rcases List.mem_append.1 hx with hx | hx
  · exact (clean7_iff _).1 hclean x hx
  · rw [List.mem_singleton.1 hx]
    exact checksumByte_le p

end Sys2Proof.Machine
end

section
/-! PROOF. Every way a command can end, and that `exec` answers exactly these. -/

namespace Sys2Proof.Machine

/-- `CommandEnds s i t`: on the state `s` the command `i` ends in `t`, one constructor for each success and each error with
its guard. `exec_eq_next_iff` ties it to the model. -/
inductive CommandEnds (s : State) : Instr → State → Prop
  | bpclr : CommandEnds s .bpclr (succeed (s.setBp [] 0))
  | bpapp {w v : Nat} (hfits : fits s.cfg.bpCap (groupsFor (s.bpTB + w)) = true) :
      CommandEnds s (.bpapp w v) (succeed (s.setBp (bpAppend s.bpG s.bpTB v w).1 (bpAppend s.bpG s.bpTB v w).2))
  | bpappFull {w v : Nat} (hfull : fits s.cfg.bpCap (groupsFor (s.bpTB + w)) = false) :
      CommandEnds s (.bpapp w v) (raiseError .plain .capacityExceeded s)
  | bpsnap {n : Nat} (hfits : fits s.cfg.bufCap (max s.bpG.length n) = true) :
      CommandEnds s (.bpsnap n) (produce ((bpSnapshot s.bpG n).map groupByte) .groups s)
  | bpsnapFull {n : Nat} (hfull : fits s.cfg.bufCap (max s.bpG.length n) = false) :
      CommandEnds s (.bpsnap n) (raiseError .producer .capacityExceeded s)
  | cksum {b : Buf} (hfits : fits s.cfg.bufCap 1 = true) :
      CommandEnds s (.cksum b) (produce [checksumByte (s.buf b)] .sum s)
  | cksumFull {b : Buf} (hfull : fits s.cfg.bufCap 1 = false) :
      CommandEnds s (.cksum b) (raiseError .producer .capacityExceeded s)
  | fbuild {frame : List Byte} (hframe : buildFrame s.bufM s.bufS s.bufD s.bufP = .ok frame)
      (hfits : fits s.cfg.bufCap frame.length = true) :
      CommandEnds s .fbuild (produce frame .frame (s.emit (.frameDump (hexdump frame))))
  | fbuildInvalid (hframe : buildFrame s.bufM s.bufS s.bufD s.bufP = .error .invalidPayload) :
      CommandEnds s .fbuild (raiseError .producer .invalidPayload s)
  | fbuildFull {frame : List Byte} (hframe : buildFrame s.bufM s.bufS s.bufD s.bufP = .ok frame)
      (hfull : fits s.cfg.bufCap frame.length = false) :
      CommandEnds s .fbuild (raiseError .producer .capacityExceeded s)
  | fparseHeartbeat {b : Buf} (hparse : parseFrame s.cfg (s.buf b) = .discard) :
      CommandEnds s (.fparse b) (s.setStatus (statusWord okCode true))
  | fparseLog {b : Buf} {entry : LogEntry} (hparse : parseFrame s.cfg (s.buf b) = .log entry) :
      CommandEnds s (.fparse b) (succeed (s.emit (.decoded entry)))
  | hexparse {b : Buf} {bytes : List Byte} (hparse : parseHex s.cfg.hexLower (s.buf b) = .ok bytes) :
      CommandEnds s (.hexparse b) (produce bytes .raw s)
  | hexparseMalformed {b : Buf} (hparse : parseHex s.cfg.hexLower (s.buf b) = .error .malformedHex) :
      CommandEnds s (.hexparse b) (raiseError .producer .malformedHex s)
  | bufclr {b : Buf} : CommandEnds s (.bufclr b) (succeed (s.setBuf b []))
  | bufpush {b : Buf} {x : Byte} (hfits : fits s.cfg.bufCap ((s.buf b).length + [x].length) = true) :
      CommandEnds s (.bufpush b x) (succeed (s.setBuf b (s.buf b ++ [x])))
  | bufpushFull {b : Buf} {x : Byte} (hfull : fits s.cfg.bufCap ((s.buf b).length + [x].length) = false) :
      CommandEnds s (.bufpush b x) (raiseError .plain .capacityExceeded s)
  | bufcat {b : Buf} (hfits : fits s.cfg.bufCap ((s.buf b).length + s.out.length) = true) :
      CommandEnds s (.bufcat b) (succeed (s.setBuf b (s.buf b ++ s.out)))
  | bufcatFull {b : Buf} (hfull : fits s.cfg.bufCap ((s.buf b).length + s.out.length) = false) :
      CommandEnds s (.bufcat b) (raiseError .plain .capacityExceeded s)

/-- Every way listed is what `exec` answers. -/
theorem CommandEnds.exec_eq {s t : State} {i : Instr} (h : CommandEnds s i t) : exec i s = .next t := by
  cases h with
  | bpclr | bufclr => rfl
  | bpapp hfits | bpsnap hfits | cksum hfits | bufpush hfits | bufcat hfits => exact if_pos hfits
  | bpappFull hfull | bpsnapFull hfull | cksumFull hfull | bufpushFull hfull | bufcatFull hfull =>
    exact if_neg (Bool.not_eq_true _ ▸ hfull)
  | fbuild hframe hfits => simp [exec, execFbuild, hframe, hfits]
  | fbuildInvalid hframe => simp only [exec, execFbuild, hframe]
  | fbuildFull hframe hfull => simp [exec, execFbuild, hframe, hfull]
  | fparseHeartbeat hparse | fparseLog hparse => simp only [exec, execFparse, hparse]
  | hexparse hparse | hexparseMalformed hparse => simp only [exec, execHexparse, hparse]

/-- The guards cover every state: each command ends in one of the ways listed (R10, R121). -/
theorem exists_commandEnds (i : Instr) (s : State) : ∃ t, CommandEnds s i t := by
  cases i with
  | bpclr => exact ⟨_, .bpclr⟩
  | bpapp w v =>
    cases hfits : fits s.cfg.bpCap (groupsFor (s.bpTB + w)) with
    | true => exact ⟨_, .bpapp hfits⟩
    | false => exact ⟨_, .bpappFull hfits⟩
  | bpsnap n =>
    cases hfits : fits s.cfg.bufCap (max s.bpG.length n) with
    | true => exact ⟨_, .bpsnap hfits⟩
    | false => exact ⟨_, .bpsnapFull hfits⟩
  | cksum b =>
    cases hfits : fits s.cfg.bufCap 1 with
    | true => exact ⟨_, .cksum hfits⟩
    | false => exact ⟨_, .cksumFull hfits⟩
  | fbuild =>
    cases hframe : buildFrame s.bufM s.bufS s.bufD s.bufP with
    | error e =>
      obtain rfl := buildFrame_error hframe
      exact ⟨_, .fbuildInvalid hframe⟩
    | ok frame =>
      cases hfits : fits s.cfg.bufCap frame.length with
      | true => exact ⟨_, .fbuild hframe hfits⟩
      | false => exact ⟨_, .fbuildFull hframe hfits⟩
  | fparse b =>
    cases hparse : parseFrame s.cfg (s.buf b) with
    | discard => exact ⟨_, .fparseHeartbeat hparse⟩
    | log entry => exact ⟨_, .fparseLog hparse⟩
  | hexparse b =>
    cases hparse : parseHex s.cfg.hexLower (s.buf b) with
    | error e =>
      obtain rfl := parseHex_error hparse
      exact ⟨_, .hexparseMalformed hparse⟩
    | ok bytes => exact ⟨_, .hexparse hparse⟩
  | bufclr b => exact ⟨_, .bufclr⟩
  | bufpush b x =>
    cases hfits : fits s.cfg.bufCap ((s.buf b).length + [x].length) with
    | true => exact ⟨_, .bufpush hfits⟩
    | false => exact ⟨_, .bufpushFull hfits⟩
  | bufcat b =>
    cases hfits : fits s.cfg.bufCap ((s.buf b).length + s.out.length) with
    | true => exact ⟨_, .bufcat hfits⟩
    | false => exact ⟨_, .bufcatFull hfits⟩

/-- `exec` answers exactly what `CommandEnds` lists. -/
theorem exec_eq_next_iff (i : Instr) (s t : State) : exec i s = .next t ↔ CommandEnds s i t := by
  refine ⟨fun h => ?_, CommandEnds.exec_eq⟩
  obtain ⟨t', hends⟩ := exists_commandEnds i s
  cases hends.exec_eq.symm.trans h
  exact hends

/-- A word that decodes runs its command (R10). -/
theorem runWord_of_decode_ok {w : Word} {i : Instr} (h : decode w = .ok i) (s : State) : runWord w s = exec i s := by
  simp only [runWord, h]

/-- A word that does not decode is the error `IllegalCommand` (R125). -/
theorem runWord_of_decode_error {w : Word} {e : Illegal} (h : decode w = .error e) (s : State) :
    runWord w s = .next (raiseError .plain .illegalCommand s) := by
  simp only [runWord, h, illegalWord]

/-- What one word can do: its command ends, or it is illegal (R49). -/
theorem runWord_cases {w : Word} {s t : State} (h : runWord w s = .next t) :
    (∃ i, decode w = .ok i ∧ CommandEnds s i t)
      ∨ ∃ e, decode w = .error e ∧ t = raiseError .plain .illegalCommand s := by
  cases hdecode : decode w with
  | ok i => exact .inl ⟨i, rfl, (exec_eq_next_iff i s t).1 (runWord_of_decode_ok hdecode s ▸ h)⟩
  | error e =>
    rw [runWord_of_decode_error hdecode] at h
    cases h
    exact .inr ⟨e, rfl, rfl⟩

/-- Every word answers a next state (R10). -/
theorem exists_runWord_eq_next (w : Word) (s : State) : ∃ t, runWord w s = .next t := by
  cases hdecode : decode w with
  | ok i =>
    obtain ⟨t, hends⟩ := exists_commandEnds i s
    exact ⟨t, (runWord_of_decode_ok hdecode s).trans hends.exec_eq⟩
  | error e => exact ⟨_, runWord_of_decode_error hdecode s⟩

end Sys2Proof.Machine
end

section
/-! PROOF. Reset, `STATUS` and `HBD` (R18, R20, R28). -/

namespace Sys2Proof.Machine

/-- The input buffers are empty after reset (R28). -/
theorem resetWith_buf (cfg : Config) (b : Buf) : (State.resetWith cfg).buf b = [] := by
  cases b <;> rfl

/-- `HBD` is clear after reset (R28). -/
theorem resetWith_hbd (cfg : Config) : (State.resetWith cfg).hbd = false := by
  simp [State.hbd, State.resetWith]

/-- Settles O10: the reset record, field by field. -/
theorem resetValues : Obligations.ResetValues := fun cfg =>
  ⟨resetWith_buf cfg, rfl, rfl, rfl, rfl, rfl, rfl, rfl, resetWith_hbd cfg, rfl, rfl, rfl⟩

/-- No guard and no result of a command reads `STATUS`, and each result writes it last (R18). -/
theorem exec_setStatus (i : Instr) (s : State) (old : BitVec 16) : exec i (s.setStatus old) = exec i s := by
  cases i <;> rfl

/-- No word reads `STATUS` (R18). -/
theorem runWord_setStatus (w : Word) (s : State) (old : BitVec 16) : runWord w (s.setStatus old) = runWord w s := by
  cases hdecode : decode w with
  | ok i => rw [runWord_of_decode_ok hdecode, runWord_of_decode_ok hdecode, exec_setStatus]
  | error e => rw [runWord_of_decode_error hdecode, runWord_of_decode_error hdecode]; rfl

/-- Every way to end writes a status word (R18). -/
theorem CommandEnds.status_eq {s t : State} {i : Instr} (h : CommandEnds s i t) :
    ∃ code hbd, t.status = statusWord code hbd := by
  cases h <;> exact ⟨_, _, rfl⟩

/-- After every word `STATUS` holds a status word (R18). -/
theorem status_of_runWord {w : Word} {s t : State} (h : runWord w s = .next t) :
    ∃ code hbd, t.status = statusWord code hbd := by
  rcases runWord_cases h with ⟨i, -, hends⟩ | ⟨e, -, rfl⟩
  · exact hends.status_eq
  · exact ⟨_, _, rfl⟩

/-- Settles O44: the old `STATUS` is not read, the new one is a status word. -/
theorem statusIsOverwrittenWhole : Obligations.StatusIsOverwrittenWhole := by
  refine ⟨fun w s old => runWord_setStatus w s old, fun w s t h => ?_, fun s => ⟨rfl, rfl⟩, rfl⟩
  obtain ⟨code, hbd, hstatus⟩ := status_of_runWord h
  rw [hstatus]
  exact reserved_statusWord code hbd

/-- A command leaves `HBD` set exactly when it is an `FPARSE` of the heartbeat (R20). -/
theorem CommandEnds.hbd_iff {s t : State} {i : Instr} (h : CommandEnds s i t) :
    t.hbd = true ↔ ∃ b, i = .fparse b ∧ s.buf b = heartbeat := by
  cases h with
  | fparseHeartbeat hparse => simp [(parseFrame_eq_discard_iff _ _).1 hparse]
  | fparseLog hparse => simp [ne_heartbeat_of_parseFrame_log hparse]
  | _ => simp

/-- A word leaves `HBD` set exactly when it is an `FPARSE` of the heartbeat (R20). -/
theorem hbd_of_runWord {w : Word} {s t : State} (h : runWord w s = .next t) :
    t.hbd = true ↔ ∃ b, decode w = .ok (.fparse b) ∧ s.buf b = heartbeat := by
  rcases runWord_cases h with ⟨i, hdecode, hends⟩ | ⟨e, hdecode, rfl⟩
  · simp [hdecode, hends.hbd_iff]
  · simp [hdecode]

/-- Settles O45: which command ends with `HBD` set, and that no word reads `STATUS`. -/
theorem hbdOnlyAfterTheHeartbeat : Obligations.HbdOnlyAfterTheHeartbeat := fun w s => by
  obtain ⟨t, h⟩ := exists_runWord_eq_next w s
  exact ⟨t, h, hbd_of_runWord h, fun hbd => (runWord_setStatus w s _).trans h⟩

end Sys2Proof.Machine
end

section
/-! PROOF. `O` and `OKIND` (R13). -/

namespace Sys2Proof.Machine

/-- The kind a successful producer command leaves (the table of R13); `none` for a command that is no producer. -/
def producedKind : Instr → Option OKind
  | .bpsnap _ => some .groups
  | .cksum _ => some .sum
  | .fbuild => some .frame
  | .hexparse _ => some .raw
  | _ => none

/-- A producer command that succeeds leaves its own kind (R13). -/
theorem CommandEnds.okind_of_ok {s t : State} {i : Instr} {kind : OKind} (h : CommandEnds s i t) (hcode : t.code = okCode)
    (hkind : producedKind i = some kind) : t.okind = kind := by
  cases h with
  | bpsnap | cksum | fbuild | hexparse => exact Option.some.inj hkind
  | bpsnapFull | cksumFull | fbuildInvalid | fbuildFull | hexparseMalformed => exact absurd hcode (by simp)
  | _ => cases hkind

/-- What `O` then holds fits its kind (R13). -/
theorem CommandEnds.outInv {s t : State} {i : Instr} (h : CommandEnds s i t) (hi : Instr.isProducer i = true) : OutInv t := by
  cases h with
  | bpsnap =>
    refine ⟨by simp, by simp, fun _ x hx => ?_⟩
    obtain ⟨g, -, rfl⟩ := List.mem_map.1 hx
    exact groupByte_le g
  | cksum => exact ⟨by simp, by simp, by simpa using checksumByte_le _⟩
  | fbuild hframe => exact ⟨by simp, by simp, fun _ => buildFrame_bytes_le hframe⟩
  | hexparse => exact ⟨by simp, by simp, by simp⟩
  | bpsnapFull | cksumFull | fbuildInvalid | fbuildFull | hexparseMalformed => simp [OutInv]
  | _ => cases hi

/-- A producer command that fails leaves `NONE` and an empty `O` (R13, R130). -/
theorem CommandEnds.out_of_error {s t : State} {i : Instr} (h : CommandEnds s i t) (hi : Instr.isProducer i = true)
    (hcode : t.code ≠ okCode) : t.out = [] ∧ t.okind = .none := by
  cases h with
  | bpsnapFull | cksumFull | fbuildInvalid | fbuildFull | hexparseMalformed => exact ⟨rfl, rfl⟩
  | bpsnap | cksum | fbuild | hexparse => exact absurd (produce_code _ _ _) hcode
  | _ => cases hi

/-- Every other command leaves `O` and `OKIND` as they were (R12, R13). -/
theorem CommandEnds.out_of_not_producer {s t : State} {i : Instr} (h : CommandEnds s i t) (hi : Instr.isProducer i = false) :
    t.out = s.out ∧ t.okind = s.okind := by
  cases h with
  | bpsnap | bpsnapFull | cksum | cksumFull | fbuild | fbuildInvalid | fbuildFull | hexparse | hexparseMalformed => cases hi
  | _ => exact ⟨rfl, rfl⟩

/-- A word that decodes is a producer when its command is one (R9). -/
theorem producerWord_of_decode_ok {w : Word} {i : Instr} (h : decode w = .ok i) : producerWord w = Instr.isProducer i := by
  simp only [producerWord, h]

/-- An illegal word is no producer (R125). -/
theorem producerWord_of_decode_error {w : Word} {e : Illegal} (h : decode w = .error e) : producerWord w = false := by
  simp only [producerWord, h]

/-- Settles O47: the kinds of success and failure from the ways a command can end. -/
theorem outputKindNamesTheProducer : Obligations.OutputKindNamesTheProducer := by
  refine ⟨⟨rfl, rfl, rfl, rfl, rfl⟩, fun w s t h => ?_⟩
  rcases runWord_cases h with ⟨i, hdecode, hends⟩ | ⟨e, hdecode, rfl⟩
  · rw [producerWord_of_decode_ok hdecode, hdecode]
    refine ⟨fun hcode => ⟨?_, ?_, ?_, ?_⟩, fun hi => ⟨hends.outInv hi, hends.out_of_error hi⟩, hends.out_of_not_producer⟩
    · rintro ⟨n, ⟨⟩⟩
      exact hends.okind_of_ok hcode rfl
    · rintro ⟨b, ⟨⟩⟩
      exact hends.okind_of_ok hcode rfl
    · rintro ⟨⟩
      exact hends.okind_of_ok hcode rfl
    · rintro ⟨b, ⟨⟩⟩
      exact hends.okind_of_ok hcode rfl
  · simp [producerWord_of_decode_error hdecode]

end Sys2Proof.Machine
end

section
/-! PROOF. The trace `DIAG` (R21). -/

namespace Sys2Proof.Machine

/-- The same state with another trace. -/
def State.setDiag (s : State) (diag : List DiagEvent) : State := { s with diag := diag }

/-- When a command adds `events` to the trace, it adds them to any other trace and does nothing else differently: no guard
and no result reads the trace (R21). -/
theorem CommandEnds.setDiag {s t : State} {i : Instr} {events : List DiagEvent} (h : CommandEnds s i t)
    (hevents : t.diag = s.diag ++ events) (diag : List DiagEvent) :
    CommandEnds (s.setDiag diag) i (t.setDiag (diag ++ events)) := by
  cases h with
  | fbuild hframe hfits =>
    obtain rfl := List.append_cancel_left hevents
    exact .fbuild hframe hfits
  | fparseLog hparse =>
    obtain rfl := List.append_cancel_left hevents
    exact .fparseLog hparse
  | _ =>
    obtain rfl : events = [] := by simpa using hevents
    rw [List.append_nil]
    constructor <;> assumption

/-- The events a command adds to the trace (R21): the dump of a frame built, the entry of a sequence logged, or none. -/
theorem CommandEnds.exists_events {s t : State} {i : Instr} (h : CommandEnds s i t) :
    ∃ events : List DiagEvent, t.diag = s.diag ++ events
      ∧ ((i = .fbuild ∧ t.code = okCode ∧ events = [.frameDump (hexdump t.out)])
        ∨ (∃ b entry, i = .fparse b ∧ s.buf b ≠ heartbeat ∧ parseFrame s.cfg (s.buf b) = .log entry
          ∧ events = [.decoded entry])
        ∨ (events = [] ∧ (i = .fbuild → t.code ≠ okCode) ∧ ∀ b, i = .fparse b → s.buf b = heartbeat)) := by
  cases h with
  | fbuild => exact ⟨_, rfl, .inl ⟨rfl, produce_code _ _ _, rfl⟩⟩
  | fparseLog hparse => exact ⟨_, rfl, .inr (.inl ⟨_, _, rfl, ne_heartbeat_of_parseFrame_log hparse, hparse, rfl⟩)⟩
  | fparseHeartbeat hparse => exact ⟨[], by simp [(parseFrame_eq_discard_iff _ _).1 hparse]⟩
  | _ => exact ⟨[], by simp⟩

/-- Settles O48: the events of a command, and that it adds the same ones to any trace. -/
theorem traceIsAppendedToAndNeverRead : Obligations.TraceIsAppendedToAndNeverRead := fun w s t h => by
  rcases runWord_cases h with ⟨i, hdecode, hends⟩ | ⟨e, hdecode, rfl⟩
  · obtain ⟨events, hevents, hwhich⟩ := hends.exists_events
    refine ⟨events, hevents, fun diag => ?_, by simpa only [hdecode, Except.ok.injEq] using hwhich⟩
    rw [runWord_of_decode_ok hdecode]
    exact (exec_eq_next_iff _ _ _).2 (hends.setDiag hevents diag)
  · refine ⟨[], by simp, fun diag => ?_, by simp [hdecode]⟩
    rw [runWord_of_decode_error hdecode, List.append_nil]
    rfl

end Sys2Proof.Machine
end

section
/-! PROOF. The decoder and the opcode map agree (R46 to R49): a word of a row is a command with the row's mnemonic, and a word
that decodes is a word of a row. -/

namespace Sys2Proof

open Sys2Proof.Laws Sys2Proof.Machine

/-- The fields of a word of a row, under the fields of the row's mask, are the fields of its match (R45, R47). -/
theorem OpRow.fields_of_admits {r : OpRow} {w : Word} (h : r.admits w = true) :
    opField w &&& opField r.mask = opField r.pattern ∧ aField w &&& aField r.mask = aField r.pattern
      ∧ immField w &&& immField r.mask = immField r.pattern := by
  have hpattern : r.pattern = w &&& r.mask := (of_decide_eq_true h).symm
  simp only [hpattern, opField, aField, immField, BitVec.extractLsb'_and, and_self]

/-- Every mask of the map holds the whole opcode (R47), so a word of a row has the row's opcode. -/
theorem OpRow.opField_of_admits {r : OpRow} (hr : r ∈ opcodeMap) {w : Word} (h : r.admits w = true) :
    opField w = opField r.pattern := by
  have hmask : ∀ r ∈ opcodeMap, opField r.mask = BitVec.allOnes 8 := by decide
  have hop := (OpRow.fields_of_admits h).1
  rwa [hmask r hr, BitVec.and_allOnes] at hop

/-- The mnemonics of the map are pairwise different (R47), so a row is known by its mnemonic. -/
theorem OpRow.eq_of_mnemonic_eq {r r' : OpRow} (hr : r ∈ opcodeMap) (hr' : r' ∈ opcodeMap)
    (h : r.mnemonic = r'.mnemonic) : r = r' :=
  List.inj_on_of_nodup_map (f := OpRow.mnemonic) (by decide) hr hr' h

/-! ### From a row of the map to the decoder -/

/-- A selector with its upper six bits zero names a buffer (R46). -/
theorem exists_decodeBuf_eq_some {a : BitVec 8} (ha : a &&& 0xFC = 0) : ∃ b, decodeBuf a = some b :=
  Option.isSome_iff_exists.1 (by revert a; decide)

/-- A word of a row with no operand decodes (R48). -/
theorem decodeBare_eq_ok (i : Instr) {a : BitVec 8} {imm : BitVec 16} (ha : a &&& 0xFF = 0) (himm : imm &&& 0xFFFF = 0) :
    decodeBare i a imm = .ok i :=
  if_pos ⟨BitVec.and_allOnes.symm.trans ha, BitVec.and_allOnes.symm.trans himm⟩

/-- A word of a row whose only operand is a buffer decodes to the row's command on some buffer (R46, R48). -/
theorem exists_decodeOneBuf_eq_ok {mk : Buf → Instr} {mnemonic : String} (hmk : ∀ b, (mk b).mnemonic = mnemonic)
    {a : BitVec 8} {imm : BitVec 16} (ha : a &&& 0xFC = 0) (himm : imm &&& 0xFFFF = 0) :
    ∃ i, decodeOneBuf mk a imm = .ok i ∧ i.mnemonic = mnemonic := by
  obtain ⟨b, hb⟩ := exists_decodeBuf_eq_some ha
  refine ⟨mk b, ?_, hmk b⟩
  simp only [decodeOneBuf, hb]
  exact if_pos (BitVec.and_allOnes.symm.trans himm)

/-- A word of the row of `BUFPUSH` decodes to one (R46). -/
theorem exists_decodePush_eq_ok {a : BitVec 8} {imm : BitVec 16} (ha : a &&& 0xFC = 0) (himm : imm &&& 0xFF00 = 0) :
    ∃ i, decodePush a imm = .ok i ∧ i.mnemonic = "BUFPUSH" := by
  obtain ⟨b, hb⟩ := exists_decodeBuf_eq_some ha
  have hhigh : imm.extractLsb' 8 8 = 0 := by
    have hmasked := congrArg (BitVec.extractLsb' 8 8) himm
    rw [BitVec.extractLsb'_and] at hmasked
    exact BitVec.and_allOnes.symm.trans hmasked
  refine ⟨.bufpush b (imm.extractLsb' 0 8), ?_, rfl⟩
  simp only [decodePush, hb]
  exact if_pos hhigh

/-- A word of the row of `BPSNAP` decodes to one (R48). -/
theorem decodeSnap_eq_ok {a : BitVec 8} (imm : BitVec 16) (ha : a &&& 0xFF = 0) :
    decodeSnap a imm = .ok (.bpsnap imm.toNat) :=
  if_pos (BitVec.and_allOnes.symm.trans ha)

/-- A word of a row decodes to a command with the row's mnemonic (R47). -/
theorem exists_decode_eq_ok_of_admits {r : OpRow} (hr : r ∈ opcodeMap) {w : Word} (h : r.admits w = true) :
    ∃ i, decode w = .ok i ∧ i.mnemonic = r.mnemonic := by
  have hop := OpRow.opField_of_admits hr h
  obtain ⟨-, ha, himm⟩ := OpRow.fields_of_admits h
  simp only [decode, hop]
  simp only [opcodeMap, List.mem_cons, List.not_mem_nil, or_false] at hr
  rcases hr with rfl | rfl | rfl | rfl | rfl | rfl | rfl | rfl | rfl | rfl
  · exact ⟨.bpclr, decodeBare_eq_ok _ ha himm, rfl⟩
  · exact ⟨.bpapp _ _, rfl, rfl⟩
  · exact ⟨.bpsnap _, decodeSnap_eq_ok _ ha, rfl⟩
  · exact exists_decodeOneBuf_eq_ok (mk := .cksum) (fun _ => rfl) ha himm
  · exact ⟨.fbuild, decodeBare_eq_ok _ ha himm, rfl⟩
  · exact exists_decodeOneBuf_eq_ok (mk := .fparse) (fun _ => rfl) ha himm
  · exact exists_decodeOneBuf_eq_ok (mk := .hexparse) (fun _ => rfl) ha himm
  · exact exists_decodeOneBuf_eq_ok (mk := .bufclr) (fun _ => rfl) ha himm
  · exact exists_decodePush_eq_ok ha himm
  · exact exists_decodeOneBuf_eq_ok (mk := .bufcat) (fun _ => rfl) ha himm

/-! ### From the decoder to a row of the map -/

/-- The selector a buffer was read from is the buffer's own (R46). -/
theorem encodeBuf_of_decodeBuf {a : BitVec 8} {b : Buf} (h : decodeBuf a = some b) : encodeBuf b = a := by
  unfold decodeBuf at h
  split_ifs at h <;> cases h <;> exact Eq.symm ‹_›

/-- What a decoded word with no operand spells (R48). -/
theorem encode_of_decodeBare {op a : BitVec 8} {imm : BitVec 16} {i j : Instr} (hj : encode j = packWord op 0 0)
    (h : decodeBare j a imm = .ok i) : encode i = packWord op a imm := by
  unfold decodeBare at h
  split_ifs at h with hzero
  cases h
  rw [hj, hzero.1, hzero.2]

/-- What a decoded word whose only operand is a buffer spells (R46, R48). -/
theorem encode_of_decodeOneBuf {op a : BitVec 8} {imm : BitVec 16} {i : Instr} {mk : Buf → Instr}
    (hmk : ∀ b, encode (mk b) = packWord op (encodeBuf b) 0) (h : decodeOneBuf mk a imm = .ok i) :
    encode i = packWord op a imm := by
  unfold decodeOneBuf at h
  split at h
  · cases h
  next b hb =>
    split_ifs at h with himm
    cases h
    rw [hmk, encodeBuf_of_decodeBuf hb, himm]

/-- What a decoded `BUFPUSH` spells (R46). -/
theorem encode_of_decodePush {a : BitVec 8} {imm : BitVec 16} {i : Instr} (h : decodePush a imm = .ok i) :
    encode i = packWord 0x51 a imm := by
  unfold decodePush at h
  split at h
  · cases h
  next b hb =>
    split_ifs at h with hhigh
    cases h
    have himm : (imm.extractLsb' 0 8).setWidth 16 = imm := by
      have hquotient := congrArg BitVec.toNat hhigh
      refine BitVec.eq_of_toNat_eq ?_
      simp only [BitVec.toNat_setWidth, BitVec.extractLsb'_toNat, Nat.shiftRight_eq_div_pow, BitVec.ofNat_eq_ofNat,
        BitVec.toNat_ofNat] at hquotient ⊢
      omega
    rw [encode, encodeBuf_of_decodeBuf hb, himm]

/-- What a decoded `BPSNAP` spells (R48). -/
theorem encode_of_decodeSnap {a : BitVec 8} {imm : BitVec 16} {i : Instr} (h : decodeSnap a imm = .ok i) :
    encode i = packWord 0x12 a imm := by
  unfold decodeSnap at h
  split_ifs at h with ha
  cases h
  rw [encode, ha, BitVec.ofNat_toNat, BitVec.setWidth_eq]

/-- A word that decodes is the word of its command (R48). -/
theorem encode_of_decode {w : Word} {i : Instr} (h : decode w = .ok i) : encode i = w := by
  rw [← packWord_fields w]
  simp only [decode] at h
  split_ifs at h with hop hop hop hop hop hop hop hop hop hop <;> rw [hop]
  · exact encode_of_decodeBare rfl h
  · cases h; simp [encode]
  · exact encode_of_decodeSnap h
  · exact encode_of_decodeOneBuf (fun _ => rfl) h
  · exact encode_of_decodeBare rfl h
  · exact encode_of_decodeOneBuf (fun _ => rfl) h
  · exact encode_of_decodeOneBuf (fun _ => rfl) h
  · exact encode_of_decodeOneBuf (fun _ => rfl) h
  · exact encode_of_decodePush h
  · exact encode_of_decodeOneBuf (fun _ => rfl) h

/-- The word of every command is a word of the row with its mnemonic (R47, R48). -/
theorem rowFields (i : Instr) : RowFields.Statement i := by
  cases i with
  | bpclr => exact RowFields.bpclr
  | bpapp w v => exact RowFields.bpapp w v
  | bpsnap n => exact RowFields.bpsnap n
  | cksum b => exact RowFields.cksum b
  | fbuild => exact RowFields.fbuild
  | fparse b => exact RowFields.fparse b
  | hexparse b => exact RowFields.hexparse b
  | bufclr b => exact RowFields.bufclr b
  | bufpush b x => exact RowFields.bufpush b x
  | bufcat b => exact RowFields.bufcat b

/-- A word that decodes is a word of its command's row (R47). -/
theorem exists_admits_of_decode_eq_ok {w : Word} {i : Instr} (h : decode w = .ok i) :
    ∃ r ∈ opcodeMap, r.mnemonic = i.mnemonic ∧ r.admits w = true :=
  encode_of_decode h ▸ rowFields i

/-- The rows of the map do not overlap (R47): a word of two rows would be one command with two mnemonics. -/
theorem OpRow.eq_of_admits {r r' : OpRow} (hr : r ∈ opcodeMap) (hr' : r' ∈ opcodeMap) {w : Word} (h : r.admits w = true)
    (h' : r'.admits w = true) : r = r' := by
  obtain ⟨i, hi, hmnemonic⟩ := exists_decode_eq_ok_of_admits hr h
  obtain ⟨i', hi', hmnemonic'⟩ := exists_decode_eq_ok_of_admits hr' h'
  obtain rfl : i = i' := Except.ok.inj (hi.symm.trans hi')
  exact OpRow.eq_of_mnemonic_eq hr hr' (hmnemonic.symm.trans hmnemonic')

/-- Settles O3: a word that decodes is a word of one row, its command's; one that does not is a word of none. -/
theorem everyWordIsOneCommandOrIllegal : Obligations.EveryWordIsOneCommandOrIllegal := fun w => by
  cases hdecode : decode w with
  | ok i =>
    obtain ⟨r, hr, hmnemonic, hadmits⟩ := exists_admits_of_decode_eq_ok hdecode
    exact .inl ⟨r, hr, hadmits, fun r' hr' hadmits' => OpRow.eq_of_admits hr' hr hadmits' hadmits, i, rfl, hmnemonic.symm⟩
  | error e =>
    refine .inr ⟨fun r hr => Bool.eq_false_iff.2 fun hadmits => ?_, ⟨e, rfl⟩, runWord_of_decode_error hdecode⟩
    obtain ⟨i, hi, -⟩ := exists_decode_eq_ok_of_admits hr hadmits
    cases hdecode.symm.trans hi

end Sys2Proof
end

section
/-! PROOF. The bit-packer's three commands (40_bitpacker.md): their words, a whole effect each, and the count of groups. -/

namespace Sys2Proof

/-- The word of scalar operands that fit their fields (R46), as R70 and R71 write it. -/
theorem packWord_ofNat (op : BitVec 8) {a imm : Nat} (ha : a < 256) (himm : imm < 65536) :
    packWord op (BitVec.ofNat 8 a) (BitVec.ofNat 16 imm)
      = op.setWidth 32 <<< 24 ||| BitVec.ofNat 32 (a <<< 16) ||| BitVec.ofNat 32 imm := by
  have hshift : (BitVec.ofNat 32 a) <<< 16 = BitVec.ofNat 32 (a <<< 16) := by
    apply BitVec.eq_of_toNat_eq
    simp [Nat.shiftLeft_eq]
  rw [packWord, BitVec.setWidth_ofNat_of_le_of_lt (by decide) (by simpa using ha),
    BitVec.setWidth_ofNat_of_le_of_lt (by decide) (by simpa using himm), hshift]

end Sys2Proof

namespace Sys2Proof.Machine

/-- More elements than a finite capacity do not fit (R126). -/
theorem fits_eq_false_of_lt {c : Cap} {k n : Nat} (hc : c = .bounded k) (hlt : k < n) : fits c n = false := by
  simp [hc, fits, hlt]

/-- Settles O13: the success of `BPCLR`, the one way it ends, is that record. -/
theorem bpclrEmptiesTheAccumulator : Obligations.BpclrEmptiesTheAccumulator :=
  ⟨rfl, fun _ => CommandEnds.bpclr.exec_eq⟩

/-- `BPAPP` where the groups fit: the append of R66, and success (R70). -/
theorem exec_bpapp_of_within {s : State} {w : Nat} (hfits : Within s.cfg.bpCap ((s.bpTB + w + 6) / 7)) (v : Nat) :
    exec (.bpapp w v) s
      = .next { s with bpG := (bpAppend s.bpG s.bpTB v w).1, bpTB := (bpAppend s.bpG s.bpTB v w).2, status := 0x0000 } :=
  (CommandEnds.bpapp ((within_iff_fits _ _).1 hfits)).exec_eq

/-- Settles O14: the two ways `BPAPP` ends, by the capacity test. -/
theorem bpappAppendsOrRefuses : Obligations.BpappAppendsOrRefuses :=
  ⟨fun _ _ hw hv => packWord_ofNat 0x11 hw hv, fun _ _ v =>
    ⟨fun hfits => exec_bpapp_of_within hfits v,
      fun _ hcap hlt => (CommandEnds.bpappFull (fits_eq_false_of_lt hcap hlt)).exec_eq⟩⟩

/-- Appending no bits leaves the accumulator as it was (R73). -/
@[simp] theorem bpAppend_zero_width (groups : List Group) (total value : Nat) :
    bpAppend groups total value 0 = (groups, total) := if_pos rfl

/-- Settles O17: the width is tested before anything is popped. -/
theorem zeroWidthAppendIsNoOp : Obligations.ZeroWidthAppendIsNoOp := bpAppend_zero_width

/-- A snapshot of as many groups as asked for, or more, is the groups (R68). -/
theorem bpSnapshot_of_le {groups : List Group} {n : Nat} (h : n ≤ groups.length) : bpSnapshot groups n = groups := by
  rw [bpSnapshot, Nat.sub_eq_zero_of_le h, List.replicate_zero, List.append_nil]

/-- The length of a snapshot (R68). -/
@[simp] theorem bpSnapshot_length (groups : List Group) (n : Nat) :
    (bpSnapshot groups n).length = max groups.length n := by
  rw [bpSnapshot, List.length_append, List.length_replicate]
  omega

/-- Settles O21: there is padding only when there are fewer groups than asked for. -/
theorem snapshotPadsWithZeroGroups : Obligations.SnapshotPadsWithZeroGroups := fun groups n => by
  refine ⟨?_, bpSnapshot_length groups n, bpSnapshot_of_le (Nat.zero_le _)⟩
  split
  · rfl
  · exact bpSnapshot_of_le (by omega)

/-- The bytes of a snapshot: the groups as bytes, and a zero byte for each zero group (R31, R71). -/
theorem map_groupByte_bpSnapshot (groups : List Group) (n : Nat) :
    (bpSnapshot groups n).map groupByte
      = groups.map (fun g => g.setWidth 8) ++ List.replicate (n - groups.length) 0 := by
  rw [bpSnapshot, List.map_append, List.map_replicate]
  rfl

/-- `BPSNAP` where the snapshot fits: its bytes in `O`, and success (R71). -/
theorem exec_bpsnap_of_within {s : State} {n : Nat} (hfits : Within s.cfg.bufCap (max s.bpG.length n)) :
    exec (.bpsnap n) s = .next (produce ((bpSnapshot s.bpG n).map groupByte) .groups s) :=
  (CommandEnds.bpsnap ((within_iff_fits _ _).1 hfits)).exec_eq

/-- Settles O22: the two ways `BPSNAP` ends, by the capacity test, and the bytes of the snapshot. -/
theorem bpsnapCopiesThePaddedGroups : Obligations.BpsnapCopiesThePaddedGroups := by
  refine ⟨fun n hn => packWord_ofNat 0x12 (a := 0) (by decide) hn, fun s n => ⟨fun hfits => ?_, fun c hcap hlt => ?_⟩⟩
  · rw [exec_bpsnap_of_within hfits, map_groupByte_bpSnapshot, produce_eq]
  · exact (CommandEnds.bpsnapFull (fits_eq_false_of_lt hcap hlt)).exec_eq

/-- Append keeps the group count of R16 (a), `ceil(TB / 7)`: the loop fills a popped group on or begins at a full one. -/
theorem bpAppend_length {groups : List Group} {total : Nat} (hlen : groups.length = (total + 6) / 7) (value width : Nat) :
    (bpAppend groups total value width).1.length = (total + width + 6) / 7 := by
  rcases Nat.eq_zero_or_pos width with rfl | hwidth
  · simpa using hlen
  · simp only [bpAppend, groupWidth, Nat.ne_of_gt hwidth, if_false]
    split
    · rw [List.length_append, packLoop_length _ _ _ _ _ (by decide) hwidth le_rfl]
      omega
    · rw [List.length_append, List.length_dropLast, packLoop_length _ _ _ _ _ (Nat.mod_lt _ (by decide)) hwidth le_rfl]
      omega

/-- A list of commands goes on from the state its first command leaves (R40). -/
theorem execAll_cons_of_next {i : Instr} {s t : State} (h : exec i s = .next t) (is : List Instr) :
    execAll (i :: is) s = execAll is t := by
  simp only [execAll, h]

/-- One append with an unbounded `BP_CAP` succeeds: it adds its width to `BP.TB`, keeps the group count of R16 (a), and leaves
the parameters (R70). -/
theorem exists_exec_bpapp {s : State} (hlen : s.bpG.length = (s.bpTB + 6) / 7) (hcap : s.cfg.bpCap = .inf) (w v : Nat) :
    ∃ t, exec (.bpapp w v) s = .next t ∧ t.bpTB = s.bpTB + w ∧ t.bpG.length = (t.bpTB + 6) / 7 ∧ t.cfg = s.cfg := by
  refine ⟨_, exec_bpapp_of_within (hcap ▸ within_inf _) v, bpAppend_total _ _ _ _, ?_, rfl⟩
  rw [bpAppend_length hlen, bpAppend_total]

/-- Appends with an unbounded `BP_CAP` all succeed and add their widths to `BP.TB`, with the group count of R16 (a) (R74). -/
theorem exists_execAll_bpapp (fields : List (Nat × Nat)) {s : State} (hlen : s.bpG.length = (s.bpTB + 6) / 7)
    (hcap : s.cfg.bpCap = .inf) :
    ∃ t, execAll (fields.map fun f => .bpapp f.2 f.1) s = .next t ∧ t.bpTB = s.bpTB + (fields.map Prod.snd).sum
      ∧ t.bpG.length = (t.bpTB + 6) / 7 ∧ t.cfg = s.cfg := by
  induction fields generalizing s with
  | nil => exact ⟨s, rfl, rfl, hlen, rfl⟩
  | cons f fields ih =>
    obtain ⟨t, hexec, htotal, hcount, hcfg⟩ := exists_exec_bpapp hlen hcap f.2 f.1
    obtain ⟨u, hrun, htotal', hcount', hcfg'⟩ := ih hcount (hcfg ▸ hcap)
    refine ⟨u, (execAll_cons_of_next hexec _).trans hrun, ?_, hcount', hcfg'.trans hcfg⟩
    rw [htotal', htotal, List.map_cons, List.sum_cons, Nat.add_assoc]

/-- Settles O19: the appends by induction on the list of them, then one snapshot. -/
theorem groupCountAfterAppends : Obligations.GroupCountAfterAppends := by
  intro s fields n hgroups htotal hbpCap hbufCap
  obtain ⟨t, hrun, htotal', hcount, hcfg⟩ := exists_execAll_bpapp fields (s := s) (by rw [hgroups, htotal]; rfl) hbpCap
  rw [htotal, Nat.zero_add] at htotal'
  rw [htotal'] at hcount
  refine ⟨t, _, hrun, exec_bpsnap_of_within (hcfg ▸ hbufCap ▸ within_inf _), htotal', hcount, ?_, ?_⟩
  · rw [produce_out, List.length_map, bpSnapshot_length, hcount]
  · rw [produce_out]
    exact List.forall_mem_map.2 fun g _ => groupByte_le g

end Sys2Proof.Machine
end

section
/-! PROOF. The checksum's recurrence, and the word and whole effect of `CKSUM` (41_checksum.md). -/

namespace Sys2Proof

/-- The word of a command with no `imm` operand (R46), as the rules of such commands write it. -/
theorem packWord_zero_imm (op a : BitVec 8) :
    packWord op a 0 = op.setWidth 32 <<< 24 ||| a.setWidth 32 <<< 16 :=
  BitVec.or_zero

end Sys2Proof

namespace Sys2Proof.Machine

/-- The recurrence of R80 with its constants from R4 written as numbers. -/
theorem checksum_eq_foldl (payload : List Byte) :
    checksum payload = payload.foldl (fun acc b => (acc * 3 + b.toNat) % 256) payload.length % 128 := rfl

/-- Settles O24: the fold is the model's own; the example is the seven rounds from the seed 7, the last of them at 237. -/
theorem checksumRecurrence : Obligations.ChecksumRecurrence := ⟨checksum_eq_foldl, by decide⟩

/-- `CKSUM` where one byte fits: the checksum byte in `O`, and success (R82). -/
theorem exec_cksum_of_within {s : State} (hfits : Within s.cfg.bufCap 1) (b : Buf) :
    exec (.cksum b) s = .next (produce [checksumByte (s.buf b)] .sum s) :=
  (CommandEnds.cksum ((within_iff_fits _ _).1 hfits)).exec_eq

/-- `CKSUM` where not even one byte fits: the error entry of a producer (R82, R130). -/
theorem exec_cksum_of_no_capacity {s : State} (hcap : s.cfg.bufCap = .bounded 0) (b : Buf) :
    exec (.cksum b) s = .next (raiseError .producer .capacityExceeded s) :=
  (CommandEnds.cksumFull (fits_eq_false_of_lt hcap Nat.zero_lt_one)).exec_eq

/-- Settles O29: the word's fields, and the two ways `CKSUM` ends, by the capacity test. -/
theorem cksumWritesTheChecksum : Obligations.CksumWritesTheChecksum := by
  refine ⟨fun b => packWord_zero_imm 0x20 (encodeBuf b), fun s b => ⟨fun hfits => ?_, fun hcap => ?_⟩⟩
  · rw [exec_cksum_of_within hfits, produce_eq, checksumByte]
  · rw [exec_cksum_of_no_capacity hcap, raiseError_producer]
    rfl

end Sys2Proof.Machine
end

section
/-! PROOF. The word and whole effect of `FBUILD` (42_frame_build.md). -/

namespace Sys2Proof.Machine

/-- Operands with every byte at most 0x7F are built into a frame (R88, R89). -/
theorem buildFrame_eq_ok_of_forall_le {m s d p : List Byte} (hclean : ∀ x ∈ m ++ s ++ d ++ p, x.toNat ≤ 0x7F) :
    buildFrame m s d p = .ok (m ++ s ++ d ++ p ++ [checksumByte p]) :=
  (buildFrame_eq_ok_iff m s d p _).2 ⟨(clean7_iff _).2 hclean, rfl⟩

/-- One byte above 0x7F in any operand refuses the whole frame (R89). -/
theorem buildFrame_eq_error_of_exists_lt {m s d p : List Byte} (hhigh : ∃ x ∈ m ++ s ++ d ++ p, 0x7F < x.toNat) :
    buildFrame m s d p = .error .invalidPayload := by
  obtain ⟨x, hx, hlt⟩ := hhigh
  exact if_neg fun hclean => Nat.not_le_of_lt hlt ((clean7_iff _).1 hclean x hx)

/-- A frame is one byte, the checksum, longer than its operands (R88). -/
theorem buildFrame_length {m s d p frame : List Byte} (h : buildFrame m s d p = .ok frame) :
    frame.length = (m ++ s ++ d ++ p).length + 1 := by
  obtain ⟨-, rfl⟩ := (buildFrame_eq_ok_iff m s d p frame).1 h
  exact List.length_append

/-- Settles O30: the three ways `FBUILD` ends, by the 7-bit test and then the capacity test. -/
theorem fbuildBuildsOrRefuses : Obligations.FbuildBuildsOrRefuses := by
  refine ⟨rfl, fun s => ⟨fun hclean hfits => ?_, fun hhigh => ?_, fun c hclean hcap hlt => ?_⟩⟩
  · have hframe := buildFrame_eq_ok_of_forall_le hclean
    exact (CommandEnds.fbuild hframe ((within_iff_fits _ _).1 (buildFrame_length hframe ▸ hfits))).exec_eq
  · exact (CommandEnds.fbuildInvalid (buildFrame_eq_error_of_exists_lt hhigh)).exec_eq
  · have hframe := buildFrame_eq_ok_of_forall_le hclean
    exact (CommandEnds.fbuildFull hframe (fits_eq_false_of_lt hcap (buildFrame_length hframe ▸ hlt))).exec_eq

end Sys2Proof.Machine
end

section
/-! PROOF. The fields of a parsed frame, and the word and whole effect of `FPARSE` (43_frame_parse.md). -/

namespace Sys2Proof.Machine

/-- The slice between two positions is what stands between them (R8). -/
theorem slice_append_middle (front : List Byte) {field : List Byte} (back : List Byte) {i j : Nat}
    (hi : front.length = i) (hj : i + field.length = j) : slice (front ++ (field ++ back)) i j = field := by
  subst hi hj
  rw [slice, List.drop_left, Nat.add_sub_cancel_left, List.take_left]

/-- The fields of a sequence put together from fields with the id lengths of the parameters (R97). -/
theorem decodeFields_append {cfg : Config} {mfr sub dev : List Byte} (hmfr : mfr.length = cfg.mfrLen)
    (hsub : sub.length = cfg.subLen) (hdev : dev.length = cfg.devLen) (payload : List Byte) (ck : Byte) :
    decodeFields cfg (mfr ++ sub ++ dev ++ payload ++ [ck])
      = .fields mfr sub dev payload ck (decide (checksum payload = ck.toNat)) := by
  have hms : (mfr ++ sub).length = cfg.mfrLen + cfg.subLen := by rw [List.length_append, hmfr, hsub]
  have hmsd : (mfr ++ sub ++ dev).length = cfg.mfrLen + cfg.subLen + cfg.devLen := by
    rw [List.length_append, hms, hdev]
  have hmfrSlice := slice_append_middle [] (sub ++ (dev ++ (payload ++ [ck]))) rfl ((Nat.zero_add _).trans hmfr)
  have hsubSlice := slice_append_middle mfr (dev ++ (payload ++ [ck])) hmfr (congrArg _ hsub)
  have hdevSlice := slice_append_middle (mfr ++ sub) (payload ++ [ck]) hms (congrArg _ hdev)
  have hpayload := slice_append_middle (mfr ++ sub ++ dev) (field := payload) [ck] hmsd rfl
  have hlast : (mfr ++ sub ++ dev ++ payload ++ [ck]).length - 1
      = cfg.mfrLen + cfg.subLen + cfg.devLen + payload.length := by
    rw [List.length_append, List.length_append, hmsd, List.length_singleton, Nat.add_sub_cancel]
  have hck : (mfr ++ sub ++ dev ++ payload ++ [ck]).getD
      (cfg.mfrLen + cfg.subLen + cfg.devLen + payload.length) 0 = ck := by
    rw [← hmsd, ← List.length_append, List.getD_append_right _ _ _ _ le_rfl, Nat.sub_self, List.getD_cons_zero]
  simp only [List.nil_append, List.length_nil, List.append_assoc] at hmfrSlice hsubSlice hdevSlice hpayload hlast hck ⊢
  simp only [decodeFields, hlast, hmfrSlice, hsubSlice, hdevSlice, hpayload, hck]

/-- What is not the heartbeat and has the id fields and a checksum byte is logged as its fields (R97). -/
theorem parseFrame_append {cfg : Config} {mfr sub dev payload : List Byte} {ck : Byte}
    (hraw : mfr ++ sub ++ dev ++ payload ++ [ck] ≠ heartbeat) (hmfr : mfr.length = cfg.mfrLen)
    (hsub : sub.length = cfg.subLen) (hdev : dev.length = cfg.devLen) :
    parseFrame cfg (mfr ++ sub ++ dev ++ payload ++ [ck])
      = .log (.fields mfr sub dev payload ck (decide (checksum payload = ck.toNat))) := by
  have hlong : cfg.mfrLen + cfg.subLen + cfg.devLen + 1 ≤ (mfr ++ sub ++ dev ++ payload ++ [ck]).length := by
    simp only [List.length_append, List.length_singleton]
    omega
  rw [parseFrame, if_neg hraw, if_pos hlong, decodeFields_append hmfr hsub hdev]

/-- What is not the heartbeat and is too short to split is logged as it came (R98). -/
theorem parseFrame_of_lt {cfg : Config} {raw : List Byte} (hraw : raw ≠ heartbeat)
    (hshort : raw.length < cfg.mfrLen + cfg.subLen + cfg.devLen + 1) : parseFrame cfg raw = .log (.short raw) := by
  rw [parseFrame, if_neg hraw, if_neg (Nat.not_le_of_lt hshort)]

/-- `FPARSE` of the heartbeat: only `STATUS` changes, to `HBD` alone (R99). -/
theorem exec_fparse_of_heartbeat {s : State} {b : Buf} (hbuf : s.buf b = heartbeat) :
    exec (.fparse b) s = .next { s with status := 0x0100 } :=
  (CommandEnds.fparseHeartbeat ((parseFrame_eq_discard_iff s.cfg (s.buf b)).2 hbuf)).exec_eq

/-- `FPARSE` of anything that gives an entry: the entry in the trace, and success (R99). -/
theorem exec_fparse_of_log {s : State} {b : Buf} {entry : LogEntry} (hparse : parseFrame s.cfg (s.buf b) = .log entry) :
    exec (.fparse b) s = .next { s with diag := s.diag ++ [.decoded entry], status := 0x0000 } :=
  (CommandEnds.fparseLog hparse).exec_eq

/-- Settles O32: the two ways `FPARSE` ends, by what the parser answers, and the one command that ends with `HBD` set. -/
theorem fparseDiscardsOrLogs : Obligations.FparseDiscardsOrLogs := by
  refine ⟨fun b => packWord_zero_imm 0x31 (encodeBuf b), fun s b =>
    ⟨exec_fparse_of_heartbeat, fun mfr sub dev payload ck hne hmfr hsub hdev hbuf => ?_,
      fun hne hshort => exec_fparse_of_log (parseFrame_of_lt hne hshort), fun i t h hhbd => ?_⟩⟩
  · exact exec_fparse_of_log (hbuf ▸ parseFrame_append (hbuf ▸ hne) hmfr hsub hdev)
  · obtain ⟨b', hi, -⟩ := ((exec_eq_next_iff i s t).1 h).hbd_iff.1 hhbd
    exact ⟨b', hi⟩

end Sys2Proof.Machine
end

section
/-! PROOF. The values and the number of a text's tokens, and the word and whole effect of `HEXPARSE` (44_hex.md). -/

namespace Sys2Proof.Machine

/-- The values are found exactly when every token has one, and then they are these, in order (R106). -/
theorem tokenValues_eq_some_iff (lower : Bool) (ts : List (List Byte)) (bytes : List Byte) :
    tokenValues lower ts = some bytes ↔ ts.map (tokenValue lower) = bytes.map some := by
  induction ts generalizing bytes with
  | nil => cases bytes <;> simp [tokenValues]
  | cons t ts ih =>
    cases bytes with
    | nil =>
      simp only [tokenValues, List.map_cons, List.map_nil, reduceCtorEq, iff_false]
      split <;> simp
    | cons x bytes =>
      simp only [List.map_cons, List.cons.injEq, ← ih bytes, tokenValues]
      split
      · simp [*]
      · next hnone =>
        exact ⟨nofun, fun ⟨hx, hbytes⟩ => absurd hbytes (hnone x bytes hx)⟩

/-- No values are found exactly when some token has none (R106). -/
theorem tokenValues_eq_none_iff (lower : Bool) (ts : List (List Byte)) :
    tokenValues lower ts = none ↔ ∃ t ∈ ts, tokenValue lower t = none := by
  induction ts with
  | nil => simp [tokenValues]
  | cons t ts ih =>
    rw [List.exists_mem_cons_iff, ← ih, tokenValues]
    cases tokenValue lower t <;> cases tokenValues lower ts <;> simp

/-- The parser reads a text exactly when its tokens all have values (R106). -/
theorem parseHex_eq_ok_iff (lower : Bool) (text bytes : List Byte) :
    parseHex lower text = .ok bytes ↔ (tokens text).map (tokenValue lower) = bytes.map some := by
  rw [← tokenValues_eq_some_iff, parseHex]
  split <;> simp [*]

/-- The parser refuses a text exactly when some token has no value (R106). -/
theorem parseHex_eq_error_iff (lower : Bool) (text : List Byte) :
    parseHex lower text = .error .malformedHex ↔ ∃ t ∈ tokens text, tokenValue lower t = none := by
  rw [← tokenValues_eq_none_iff, parseHex]
  split <;> simp [*]

/-- A run of characters that has ended is at most one token (R104). -/
theorem flushToken_length_le (token : List Byte) : (flushToken token).length ≤ 1 := by
  unfold flushToken
  split <;> simp

/-- Two tokens stand at least one whitespace character apart (R104). A run already begun counts as one token here, for a
character that goes on with it adds none. -/
theorem tokensFrom_length_le (token text : List Byte) :
    2 * (tokensFrom token text).length ≤ text.length + 1 + (flushToken token).length := by
  induction text generalizing token with
  | nil =>
    have hflush := flushToken_length_le token
    simp only [tokensFrom, List.length_nil]
    omega
  | cons c cs ih =>
    cases hc : isWhitespace c with
    | true =>
      have hflush := flushToken_length_le token
      have hrest : 2 * (tokensFrom [] cs).length ≤ cs.length + 1 := ih []
      rw [tokensFrom_space _ _ _ hc, List.length_append, List.length_cons]
      omega
    | false =>
      have hflush := flushToken_length_le (token ++ [c])
      have hrest := ih (token ++ [c])
      rw [tokensFrom_char _ _ _ hc, List.length_cons]
      omega

/-- A text has at most one token for every two characters, rounded up (R104, R107). -/
theorem tokens_length_le (text : List Byte) : (tokens text).length ≤ (text.length + 1) / 2 := by
  have h : 2 * (tokens text).length ≤ text.length + 1 := tokensFrom_length_le [] text
  omega

/-- The bytes read from a text are as many as its tokens (R106). -/
theorem parseHex_length {lower : Bool} {text bytes : List Byte} (h : parseHex lower text = .ok bytes) :
    bytes.length = (tokens text).length := by
  simpa using (congrArg List.length ((parseHex_eq_ok_iff lower text bytes).1 h)).symm

/-- Settles O37: the word's fields, and the two ways `HEXPARSE` ends, by what the parser answers. -/
theorem hexparseReadsOrRefuses : Obligations.HexparseReadsOrRefuses := by
  refine ⟨fun b => packWord_zero_imm 0x40 (encodeBuf b), fun s b => ⟨fun bytes hvalues => ?_, fun hbad => ?_⟩⟩
  · have hparse := (parseHex_eq_ok_iff _ _ _).2 hvalues
    exact ⟨(CommandEnds.hexparse hparse).exec_eq, parseHex_length hparse ▸ tokens_length_le _⟩
  · exact (CommandEnds.hexparseMalformed ((parseHex_eq_error_iff _ _).2 hbad)).exec_eq

end Sys2Proof.Machine
end

section
/-! PROOF. The words and whole effects of the buffer commands (45_buffer_commands.md). -/

namespace Sys2Proof

/-- The word of `BUFPUSH`, its byte in the low bits of `imm` (R46), as R114 writes it. -/
theorem packWord_byte_imm (op a x : BitVec 8) :
    packWord op a (x.setWidth 16) = op.setWidth 32 <<< 24 ||| a.setWidth 32 <<< 16 ||| x.setWidth 32 := by
  rw [packWord, BitVec.setWidth_setWidth (by decide)]

/-- The upper half of `imm` is bits 15:8 of the word (R45). -/
theorem immField_high (w : Word) : (immField w).extractLsb' 8 8 = w.extractLsb' 8 8 := by
  rw [immField, ← BitVec.setWidth_eq_extractLsb' (by decide), BitVec.extractLsb'_setWidth_of_le (by decide)]

/-- The opcode 0x51 is that of `BUFPUSH` (R47). -/
theorem decode_of_opField_bufpush {w : Word} (hop : opField w = 0x51) :
    decode w = decodePush (aField w) (immField w) := by
  simp only [decode, hop]
  rfl

/-- A `BUFPUSH` whose value is no byte is illegal, whatever its selector (R49, R114). -/
theorem exists_decodePush_eq_error (a : BitVec 8) {imm : BitVec 16} (hhigh : imm.extractLsb' 8 8 ≠ 0) :
    ∃ e, decodePush a imm = .error e := by
  unfold decodePush
  split
  · exact ⟨_, rfl⟩
  · exact ⟨_, if_neg hhigh⟩

end Sys2Proof

namespace Sys2Proof.Machine

/-- A buffer command that succeeds: `B[b]` has its new bytes, `STATUS` is 0, and nothing else changes (R19, R113 to R115). -/
theorem succeed_setBuf_effect (s : State) (b : Buf) (bytes : List Byte) :
    (succeed (s.setBuf b bytes)).buf b = bytes
      ∧ (∀ b', b' ≠ b → (succeed (s.setBuf b bytes)).buf b' = s.buf b')
      ∧ (succeed (s.setBuf b bytes)).status = 0x0000 ∧ SameBesideInputs s (succeed (s.setBuf b bytes)) := by
  refine ⟨?_, fun b' hne => ?_, rfl, rfl, rfl, rfl, rfl, rfl, rfl, rfl⟩
  · rw [succeed, setStatus_buf, setBuf_buf, if_pos rfl]
  · rw [succeed, setStatus_buf, setBuf_buf, if_neg hne]

/-- Settles O39: the word's fields, and the success of `BUFCLR`, the one way it ends. -/
theorem bufclrEmptiesOneBuffer : Obligations.BufclrEmptiesOneBuffer := fun s b =>
  ⟨packWord_zero_imm 0x50 (encodeBuf b), _, CommandEnds.bufclr.exec_eq, succeed_setBuf_effect s b []⟩

/-- Settles O40: the word's fields, the illegal words with its opcode, and the two ways `BUFPUSH` ends, by the capacity test. -/
theorem bufpushAppendsOneByte : Obligations.BufpushAppendsOneByte := by
  refine ⟨fun b x => packWord_byte_imm 0x51 (encodeBuf b) x, fun w hop hhigh => ?_, fun s b x =>
    ⟨fun hfits => ?_, fun c hcap hlt => ?_⟩⟩
  · rw [decode_of_opField_bufpush hop]
    exact exists_decodePush_eq_error _ (immField_high w ▸ hhigh)
  · exact ⟨_, (CommandEnds.bufpush ((within_iff_fits _ _).1 hfits)).exec_eq, succeed_setBuf_effect s b _⟩
  · exact (CommandEnds.bufpushFull (fits_eq_false_of_lt hcap hlt)).exec_eq

/-- Settles O41: the word's fields, and the two ways `BUFCAT` ends, by the capacity test. -/
theorem bufcatAppendsTheOutput : Obligations.BufcatAppendsTheOutput := by
  refine ⟨fun b => packWord_zero_imm 0x52 (encodeBuf b), fun s b => ⟨fun hfits => ?_, fun c hcap hlt => ?_⟩⟩
  · exact ⟨_, (CommandEnds.bufcat ((within_iff_fits _ _).1 hfits)).exec_eq, succeed_setBuf_effect s b _⟩
  · exact (CommandEnds.bufcatFull (fits_eq_false_of_lt hcap hlt)).exec_eq

end Sys2Proof.Machine
end

section
/-! PROOF. Errors (60_exceptions.md): which command raises which error, what error entry leaves, and the status codes. -/

namespace Sys2Proof.Machine

/-- `ErrorSource cfg i e`: with the parameters `cfg` the command `i` can raise the error `e` (the table of R122). A capacity
error needs the capacity its command tests to be finite (R126). `CommandEnds.ok_or_error` ties it to the model. -/
inductive ErrorSource (cfg : Config) : Instr → ErrorName → Prop
  | invalidPayload : ErrorSource cfg .fbuild .invalidPayload
  | malformedHex {b : Buf} : ErrorSource cfg (.hexparse b) .malformedHex
  | bpapp {w v c : Nat} (hcap : cfg.bpCap = .bounded c) : ErrorSource cfg (.bpapp w v) .capacityExceeded
  | bpsnap {n c : Nat} (hcap : cfg.bufCap = .bounded c) : ErrorSource cfg (.bpsnap n) .capacityExceeded
  | cksum {b : Buf} {c : Nat} (hcap : cfg.bufCap = .bounded c) : ErrorSource cfg (.cksum b) .capacityExceeded
  | fbuild {c : Nat} (hcap : cfg.bufCap = .bounded c) : ErrorSource cfg .fbuild .capacityExceeded
  | bufpush {b : Buf} {x : Byte} {c : Nat} (hcap : cfg.bufCap = .bounded c) :
      ErrorSource cfg (.bufpush b x) .capacityExceeded
  | bufcat {b : Buf} {c : Nat} (hcap : cfg.bufCap = .bounded c) : ErrorSource cfg (.bufcat b) .capacityExceeded

/-- The class error entry takes (R130), from whether the command writes `O`. -/
def errorClass (producer : Bool) : CommandClass := if producer = true then .producer else .plain

/-- Error entry as one record for each class (R130). -/
theorem raiseError_errorClass (producer : Bool) (e : ErrorName) (s : State) :
    raiseError (errorClass producer) e s
      = if producer = true then { s with out := [], okind := .none, status := statusWord (errorCode e) false }
        else { s with status := statusWord (errorCode e) false } := by
  cases producer with
  | true => exact raiseError_producer e s
  | false => exact raiseError_plain e s

/-- Only a finite capacity can be exceeded (R126). -/
theorem exists_bounded_of_fits_eq_false {c : Cap} {n : Nat} (h : fits c n = false) : ∃ k, c = .bounded k := by
  cases c with
  | inf => cases h
  | bounded k => exact ⟨k, rfl⟩

/-- A command ends with `OK`, or in the error entry of its class with an error it can raise (R121, R130). -/
theorem CommandEnds.ok_or_error {s t : State} {i : Instr} (h : CommandEnds s i t) :
    t.code = okCode
      ∨ ∃ e, ErrorSource s.cfg i e ∧ t = raiseError (errorClass (Instr.isProducer i)) e s := by
  cases h with
  | fbuildInvalid => exact .inr ⟨_, .invalidPayload, rfl⟩
  | hexparseMalformed => exact .inr ⟨_, .malformedHex, rfl⟩
  | bpappFull hfull | bpsnapFull hfull | cksumFull hfull | fbuildFull _ hfull | bufpushFull hfull | bufcatFull hfull =>
    obtain ⟨c, hcap⟩ := exists_bounded_of_fits_eq_false hfull
    exact .inr ⟨_, by constructor; exact hcap, rfl⟩
  | fparseHeartbeat => exact .inl (code_setStatus s okCode true)
  | bpclr | bpapp | fparseLog | bufclr | bufpush | bufcat => exact .inl (succeed_code _)
  | bpsnap | cksum | fbuild | hexparse => exact .inl (produce_code _ _ _)

/-- A word that ends with a code other than `OK` ends in the error entry of its class; an illegal word is no producer (R125,
R130). -/
theorem exists_eq_raiseError_of_runWord {w : Word} {s t : State} (h : runWord w s = .next t) (hcode : t.code ≠ okCode) :
    ∃ e, t = raiseError (errorClass (producerWord w)) e s := by
  rcases runWord_cases h with ⟨i, hdecode, hends⟩ | ⟨_, hdecode, rfl⟩
  · obtain ⟨e, -, ht⟩ := hends.ok_or_error.resolve_left hcode
    exact ⟨e, producerWord_of_decode_ok hdecode ▸ ht⟩
  · rw [producerWord_of_decode_error hdecode]
    exact ⟨_, rfl⟩

/-- Settles O43: the state is that of error entry, and its code is the error's. -/
theorem errorEntryChangesNothingElse : Obligations.ErrorEntryChangesNothingElse := fun w s t h hcode => by
  obtain ⟨e, rfl⟩ := exists_eq_raiseError_of_runWord h hcode
  rw [raiseError_code]
  exact raiseError_errorClass _ e s

/-- The step with a word next takes the word and runs it (R10). -/
theorem step_of_pending_command {s : State} {w : Word} {rest : List HostInput} (h : s.pending = .command w :: rest) :
    step s = runWord w (s.setPending rest) := by
  simp only [step, takeInput, h, runInput]

/-- Settles O6: a word of no row is illegal (O3), and the step runs it with the word taken. -/
theorem illegalWordsChangeOnlyStatus : Obligations.IllegalWordsChangeOnlyStatus := fun s w rest hpending hnone => by
  rw [step_of_pending_command hpending]
  rcases everyWordIsOneCommandOrIllegal w with ⟨r, hr, hadmits, -⟩ | ⟨-, -, hrun⟩
  · exact absurd hadmits (Bool.eq_false_iff.1 (hnone r hr))
  · exact hrun (s.setPending rest)

/-- Settles O46: the numbers by evaluation; the code of a command is `OK` or that of an error it can raise, the code of an
illegal word is 0x10. -/
theorem statusCodesAndWhoRaisesThem : Obligations.StatusCodesAndWhoRaisesThem := by
  refine ⟨⟨rfl, rfl, rfl, rfl, rfl, rfl, rfl⟩, fun w s t h => ?_⟩
  rcases runWord_cases h with ⟨i, hdecode, hends⟩ | ⟨e, hdecode, rfl⟩
  · rcases hends.ok_or_error with hok | ⟨e, hsource, rfl⟩
    · simp [hdecode, hok, okCode]
    · rw [hdecode, raiseError_code]
      cases hsource with
      | invalidPayload | malformedHex => simp [errorCode]
      | bpapp hcap | bpsnap hcap | cksum hcap | fbuild hcap | bufpush hcap | bufcat hcap => simp [errorCode, hcap]
  · simp [hdecode, errorCode]

end Sys2Proof.Machine
end

section
/-! PROOF. Decoder and encoder are inverse to each other (R45 to R48), and the sample words. -/

namespace Sys2Proof

/-- A command with no operand is read back from its zero fields (R48). -/
@[simp] theorem decodeBare_zero (i : Instr) : decodeBare i 0 0 = .ok i := rfl

/-- A command with one buffer operand is read back from the buffer's selector and a zero `imm` (R46, R48). -/
@[simp] theorem decodeOneBuf_encodeBuf (mk : Buf → Instr) (b : Buf) : decodeOneBuf mk (encodeBuf b) 0 = .ok (mk b) := by
  simp [decodeOneBuf]

/-- A byte in the low half of `imm` has nothing above it (R46). -/
theorem high_byte_imm (x : Byte) : (x.setWidth 16).extractLsb' 8 8 = 0 := by
  revert x; decide

/-- A byte is read back from the low half of `imm` (R46). -/
theorem low_byte_imm (x : Byte) : (x.setWidth 16).extractLsb' 0 8 = x := by
  revert x; decide

/-- `BUFPUSH` is read back from its fields (R46). -/
@[simp] theorem decodePush_encodeBuf (b : Buf) (x : Byte) :
    decodePush (encodeBuf b) (x.setWidth 16) = .ok (.bufpush b x) := by
  simp only [decodePush, decodeBuf_encodeBuf, high_byte_imm, low_byte_imm, if_true]

/-- Settles O1: by the command, each row's operands are read back from its fields. -/
theorem decodeOfEncodeIsTheCommand : Obligations.DecodeOfEncodeIsTheCommand := by
  intro i hwf
  cases i with
  | bpapp w v =>
    obtain ⟨hw, hv⟩ : w < 256 ∧ v < 65536 := by simpa [Instr.wellFormed] using hwf
    simp [encode, decode, Nat.mod_eq_of_lt hw, Nat.mod_eq_of_lt hv]
  | bpsnap n =>
    have hn : n < 65536 := by simpa [Instr.wellFormed] using hwf
    simp [encode, decode, decodeSnap, Nat.mod_eq_of_lt hn]
  | bpclr | fbuild =>
    simp only [encode, decode, opField_packWord, aField_packWord, immField_packWord]
    exact decodeBare_zero _
  | cksum b | fparse b | hexparse b | bufclr b | bufcat b =>
    simp only [encode, decode, opField_packWord, aField_packWord, immField_packWord]
    exact decodeOneBuf_encodeBuf _ b
  | bufpush b x =>
    simp only [encode, decode, opField_packWord, aField_packWord, immField_packWord]
    exact decodePush_encodeBuf b x

/-- What a word with no operand decodes to is the command of its row (R48). -/
theorem eq_of_decodeBare {i j : Instr} {a : BitVec 8} {imm : BitVec 16} (h : decodeBare j a imm = .ok i) : i = j := by
  unfold decodeBare at h
  split_ifs at h
  exact (Except.ok.inj h).symm

/-- What a word with a buffer operand decodes to is the command of its row on some buffer (R46). -/
theorem exists_eq_of_decodeOneBuf {mk : Buf → Instr} {i : Instr} {a : BitVec 8} {imm : BitVec 16}
    (h : decodeOneBuf mk a imm = .ok i) : ∃ b, i = mk b := by
  unfold decodeOneBuf at h
  split at h
  · cases h
  next b _ =>
    split_ifs at h
    exact ⟨b, (Except.ok.inj h).symm⟩

/-- What a word with the opcode of `BUFPUSH` decodes to is a `BUFPUSH` (R46). -/
theorem exists_eq_of_decodePush {i : Instr} {a : BitVec 8} {imm : BitVec 16} (h : decodePush a imm = .ok i) :
    ∃ b x, i = .bufpush b x := by
  unfold decodePush at h
  split at h
  · cases h
  next b _ =>
    split_ifs at h
    exact ⟨b, _, (Except.ok.inj h).symm⟩

/-- The scalar operands a decoded word can have are those of its fields (R6, R46). -/
theorem wellFormed_of_decode {w : Word} {i : Instr} (h : decode w = .ok i) : i.wellFormed = true := by
  simp only [decode] at h
  split_ifs at h
  · rw [eq_of_decodeBare h]; rfl
  · obtain rfl := Except.ok.inj h
    simpa [Instr.wellFormed] using ⟨(aField w).isLt, (immField w).isLt⟩
  · unfold decodeSnap at h
    split_ifs at h
    obtain rfl := Except.ok.inj h
    simpa [Instr.wellFormed] using (immField w).isLt
  · obtain ⟨b, rfl⟩ := exists_eq_of_decodeOneBuf h; rfl
  · rw [eq_of_decodeBare h]; rfl
  · obtain ⟨b, rfl⟩ := exists_eq_of_decodeOneBuf h; rfl
  · obtain ⟨b, rfl⟩ := exists_eq_of_decodeOneBuf h; rfl
  · obtain ⟨b, rfl⟩ := exists_eq_of_decodeOneBuf h; rfl
  · obtain ⟨b, x, rfl⟩ := exists_eq_of_decodePush h; rfl
  · obtain ⟨b, rfl⟩ := exists_eq_of_decodeOneBuf h; rfl

/-- Settles O2: the decoder's result spells the word, and its operands come from fields. -/
theorem encodeOfDecodeIsTheWord : Obligations.EncodeOfDecodeIsTheWord :=
  fun _ _ h => ⟨encode_of_decode h, wellFormed_of_decode h⟩

/-- Settles O4: the decoder run on each of the ten words. -/
theorem sampleWordsDecode : Obligations.SampleWordsDecode :=
  ⟨rfl, rfl, rfl, rfl, rfl, rfl, rfl, rfl, rfl, rfl⟩

end Sys2Proof
end

section
/-! PROOF. The accumulator as one number (R17, R66, R67): append adds the value's low bits above the bits already there; the
closed form, the splitting law and the round trip follow. -/

namespace Sys2Proof.Machine

/-! ### The number the groups spell -/

/-- The groups read as one number, the first group lowest: its bit `i` is the bit `i` of R17 (`bpBit_eq_testBit`). -/
def packedValue (groups : List Group) : Nat := Nat.ofDigits 128 (groups.map BitVec.toNat)

@[simp] theorem packedValue_nil : packedValue [] = 0 := rfl

@[simp] theorem packedValue_cons (g : Group) (groups : List Group) :
    packedValue (g :: groups) = g.toNat + 2 ^ 7 * packedValue groups := Nat.ofDigits_cons

theorem packedValue_append (groups more : List Group) :
    packedValue (groups ++ more) = packedValue groups + 2 ^ (7 * groups.length) * packedValue more := by
  simp only [packedValue, List.map_append, Nat.ofDigits_append, List.length_map, pow_mul]
  rfl

theorem packedValue_lt (groups : List Group) : packedValue groups < 2 ^ (7 * groups.length) := by
  have h := Nat.ofDigits_lt_base_pow_length (b := 128) (l := groups.map BitVec.toNat) (by decide)
    (List.forall_mem_map.2 fun g _ => g.isLt)
  rwa [List.length_map, show 128 = 2 ^ 7 from rfl, ← pow_mul] at h

/-- Groups are known by their count and their number. -/
theorem eq_of_packedValue_eq {groups groups' : List Group} (hlen : groups.length = groups'.length)
    (h : packedValue groups = packedValue groups') : groups = groups' := by
  refine List.map_injective_iff.2 BitVec.toNat_injective ?_
  exact Nat.ofDigits_inj_of_len_eq (b := 128) (by decide) (by simpa using hlen)
    (List.forall_mem_map.2 fun g _ => g.isLt) (List.forall_mem_map.2 fun g _ => g.isLt) h

/-- Bit `i` of the bit string is bit `i` of the number (R17). -/
theorem bpBit_eq_testBit {groups : List Group} {i : Nat} (h : i < 7 * groups.length) :
    bpBit groups i = (packedValue groups).testBit i := by
  rw [bpBit_of_lt groups i (by omega)]
  induction groups generalizing i with
  | nil => simp at h
  | cons g groups ih =>
    rw [packedValue_cons, Nat.add_comm, Nat.testBit_two_pow_mul_add _ g.isLt]
    split
    next hi => simp [Nat.div_eq_of_lt hi, Nat.mod_eq_of_lt hi, BitVec.getLsbD]
    next hi =>
      rw [List.length_cons] at h
      rw [← ih (i := i - 7) (by omega)]
      simp [show i / 7 = (i - 7) / 7 + 1 by omega, show i % 7 = (i - 7) % 7 by omega]

/-- A number put together from `n` low bits and the bits above them is below `2 ^ (n + r)` when the upper part is below `2 ^ r`. -/
theorem add_two_pow_mul_lt_iff {a n : Nat} (ha : a < 2 ^ n) (b r : Nat) : a + 2 ^ n * b < 2 ^ (n + r) ↔ b < 2 ^ r := by
  rw [pow_add]
  constructor
  · intro h
    exact Nat.lt_of_mul_lt_mul_left (Nat.lt_of_le_of_lt (Nat.le_add_left _ _) h)
  · intro h
    calc a + 2 ^ n * b < 2 ^ n * (b + 1) := by rw [Nat.mul_succ]; omega
      _ ≤ 2 ^ n * 2 ^ r := Nat.mul_le_mul_left _ h

/-- The unused bits of the last group are zero (R16 (c)) exactly when the number is below `2 ^ TB`. -/
theorem bpInv_iff (groups : List Group) (total : Nat) :
    BpInv groups total ↔ groups.length = (total + 6) / 7 ∧ packedValue groups < 2 ^ total := by
  refine and_congr_right fun hlen => ?_
  rcases Nat.eq_zero_or_pos (total % 7) with hfull | hpart
  · have hlt := packedValue_lt groups
    rw [show 7 * groups.length = total by omega] at hlt
    simp [hfull, hlt]
  · obtain ⟨front, last, rfl⟩ := List.eq_nil_or_concat' groups |>.resolve_left (by rintro rfl; simp at hlen; omega)
    rw [List.length_append, List.length_singleton] at hlen
    have hsplit := add_two_pow_mul_lt_iff (packedValue_lt front) last.toNat (total % 7)
    rw [show 7 * front.length + total % 7 = total by omega] at hsplit
    simp [packedValue_append, hsplit, Nat.ne_of_gt hpart]

/-- The empty accumulator has the invariant (R16, R69). -/
theorem bpInv_nil : BpInv [] 0 := by decide

/-! ### Append on the number -/

/-- One round of the loop of R66 puts the value's low bits above the `used` bits of the group. -/
theorem toNat_group_or_shiftLeft {g : Group} {used : Nat} (hused : used < 7) (hg : g.toNat < 2 ^ used) (v : Nat) :
    (g ||| BitVec.ofNat 7 (v <<< used)).toNat = g.toNat + v * 2 ^ used % 2 ^ 7 := by
  have hpow : 2 ^ 7 = 2 ^ (7 - used) * 2 ^ used := by rw [← pow_add, Nat.sub_add_cancel hused.le]
  rw [BitVec.toNat_or, BitVec.toNat_ofNat, Nat.shiftLeft_eq, hpow, Nat.mul_mod_mul_right, ← Nat.shiftLeft_eq, Nat.or_comm,
    ← Nat.shiftLeft_add_eq_or_of_lt hg, Nat.add_comm]

/-- The loop of R66 spells the bits of the popped group with the value above them. -/
theorem packedValue_packLoop (fuel : Nat) {g : Group} {used v rem : Nat} (hused : used < 7) (hg : g.toNat < 2 ^ used)
    (hv : v < 2 ^ rem) (hfuel : rem ≤ fuel) (hrem : rem = 0 → g = 0) :
    packedValue (packLoop fuel g used v rem) = g.toNat + v * 2 ^ used := by
  induction fuel generalizing g used v rem with
  | zero =>
    obtain rfl : rem = 0 := by omega
    obtain rfl : v = 0 := by simpa using hv
    simp [packLoop, hrem]
  | succ fuel ih =>
    rcases Nat.eq_zero_or_pos rem with rfl | hpos
    · obtain rfl : v = 0 := by simpa using hv
      simp [hrem]
    · have hpow : 2 ^ 7 = 2 ^ (7 - used) * 2 ^ used := by rw [← pow_add, Nat.sub_add_cancel hused.le]
      have hrest : v >>> (7 - used) < 2 ^ (rem - min rem (7 - used)) := by
        rw [Nat.shiftRight_eq_div_pow, Nat.div_lt_iff_lt_mul (Nat.two_pow_pos _), ← pow_add]
        exact hv.trans_le (Nat.pow_le_pow_right (by decide) (by omega))
      rw [packLoop, if_neg (Nat.ne_of_gt hpos), packedValue_cons,
        ih (by decide) (by decide) hrest (by omega) (fun _ => rfl), toNat_group_or_shiftLeft hused hg,
        Nat.shiftRight_eq_div_pow]
      have hdiv : v / 2 ^ (7 - used) = v * 2 ^ used / 2 ^ 7 := by
        rw [hpow, Nat.mul_div_mul_right _ _ (Nat.two_pow_pos _)]
      have hmod := Nat.mod_add_div (v * 2 ^ used) (2 ^ 7)
      simp only [hdiv, BitVec.ofNat_eq_ofNat, BitVec.toNat_ofNat]
      omega

/-- Append adds the low `width` bits of the value at bit `total` of the number (R66, R67). -/
theorem packedValue_bpAppend {groups : List Group} {total : Nat} (hinv : BpInv groups total) (value width : Nat) :
    packedValue (bpAppend groups total value width).1 = packedValue groups + 2 ^ total * (value % 2 ^ width) := by
  rcases Nat.eq_zero_or_pos width with rfl | hwidth
  · simp [Nat.mod_one]
  · have hlow : value % 2 ^ width < 2 ^ width := Nat.mod_lt _ (Nat.two_pow_pos _)
    obtain ⟨hlen, hrest⟩ := hinv
    simp only [bpAppend, groupWidth, Nat.ne_of_gt hwidth, if_false]
    split
    next hfull =>
      rw [packedValue_append, packedValue_packLoop width (by decide) (by decide) hlow le_rfl (fun _ => rfl),
        show 7 * groups.length = total by omega]
      simp
    next hpart =>
      obtain ⟨front, last, rfl⟩ := List.eq_nil_or_concat' groups |>.resolve_left (by rintro rfl; simp at hlen; omega)
      rw [List.length_append, List.length_singleton] at hlen
      have hlast : last.toNat < 2 ^ (total % 7) := by simpa using hrest hpart
      have hpow : 2 ^ total = 2 ^ (7 * front.length) * 2 ^ (total % 7) := by rw [← pow_add]; congr 1; omega
      simp only [List.getLast?_concat, Option.getD_some, List.dropLast_concat]
      rw [packedValue_append, packedValue_append,
        packedValue_packLoop width (Nat.mod_lt _ (by decide)) hlast hlow le_rfl (by omega), packedValue_cons,
        packedValue_nil, hpow]
      ring

/-- Append keeps the invariant of the accumulator (R16, R67). -/
theorem bpInv_bpAppend {groups : List Group} {total : Nat} (hinv : BpInv groups total) (value width : Nat) :
    BpInv (bpAppend groups total value width).1 (total + width) := by
  refine (bpInv_iff _ _).2 ⟨bpAppend_length hinv.1 value width, ?_⟩
  rw [packedValue_bpAppend hinv, add_two_pow_mul_lt_iff ((bpInv_iff _ _).1 hinv).2]
  exact Nat.mod_lt _ (Nat.two_pow_pos _)

/-- An accumulator with its invariant is known by its bit count and its number. -/
theorem eq_of_bpInv {groups groups' : List Group} {total : Nat} (hinv : BpInv groups total) (hinv' : BpInv groups' total)
    (h : packedValue groups = packedValue groups') : groups = groups' :=
  eq_of_packedValue_eq (hinv.1.trans hinv'.1.symm) h

/-! ### The bit string -/

/-- The bit string is the bits of the number below `BP.TB` (R17). -/
theorem bpBits_eq_valueBits {groups : List Group} {total : Nat} (hlen : groups.length = (total + 6) / 7) :
    bpBits groups total = valueBits (packedValue groups) total :=
  List.map_congr_left fun i hi => bpBit_eq_testBit (by have := List.mem_range.1 hi; omega)

/-- The bits of a number with another one above its `n` low bits are the bits of the one and then of the other. -/
theorem valueBits_add {a n : Nat} (ha : a < 2 ^ n) (b m : Nat) :
    valueBits (a + 2 ^ n * (b % 2 ^ m)) (n + m) = valueBits a n ++ valueBits b m := by
  have hbit (i : Nat) : (a + 2 ^ n * (b % 2 ^ m)).testBit i
      = if i < n then a.testBit i else (b % 2 ^ m).testBit (i - n) := by
    rw [Nat.add_comm, Nat.testBit_two_pow_mul_add _ ha]
  simp only [valueBits, List.range_add, List.map_append, List.map_map]
  refine congrArg₂ _ (List.map_congr_left fun i hi => ?_) (List.map_congr_left fun i hi => ?_)
  · rw [hbit, if_pos (List.mem_range.1 hi)]
  · simp [hbit, List.mem_range.1 hi]

/-- Append adds the value's low bits at the end of the bit string (R67). -/
theorem bpBits_bpAppend {groups : List Group} {total : Nat} (hinv : BpInv groups total) (value width : Nat) :
    bpBits (bpAppend groups total value width).1 (total + width) = bpBits groups total ++ valueBits value width := by
  rw [bpBits_eq_valueBits (bpInv_bpAppend hinv value width).1, bpBits_eq_valueBits hinv.1, packedValue_bpAppend hinv,
    valueBits_add ((bpInv_iff _ _).1 hinv).2]

/-- The low `n` bits of a number, weighted, are the number modulo `2 ^ n`. -/
theorem sum_testBit (x n : Nat) : ((List.range n).map fun i => if x.testBit i then 2 ^ i else 0).sum = x % 2 ^ n := by
  induction n with
  | zero => simp [Nat.mod_one]
  | succ n ih =>
    rw [List.range_succ, List.map_append, List.sum_append, ih, Nat.mod_pow_succ, ← Nat.toNat_testBit]
    cases hbit : x.testBit n <;> simp [hbit]

/-- A group is seven bits of the bit string, with zeros beyond its end (R67). -/
theorem toNat_getD_of_bpInv {groups : List Group} {total j : Nat} (hinv : BpInv groups total) (hj : j < (total + 6) / 7) :
    (groups.getD j 0).toNat
      = ((List.range 7).map fun i => if (bpBits groups total).getD (7 * j + i) false then 2 ^ i else 0).sum := by
  obtain ⟨hlen, hlt⟩ := (bpInv_iff _ _).1 hinv
  have hgroup : j < groups.length := hlen ▸ hj
  rw [← Nat.mod_eq_of_lt (groups.getD j 0).isLt, ← sum_testBit]
  refine congrArg List.sum (List.map_congr_left fun i hi => ?_)
  have hi7 := List.mem_range.1 hi
  have hbit : (groups.getD j 0).toNat.testBit i = (packedValue groups).testBit (7 * j + i) := by
    rw [← bpBit_eq_testBit (by omega), bpBit_of_lt _ _ (by omega)]
    simp [show (7 * j + i) / 7 = j by omega, Nat.mod_eq_of_lt hi7, hgroup, BitVec.getLsbD]
  have hstring : (bpBits groups total).getD (7 * j + i) false = (packedValue groups).testBit (7 * j + i) := by
    rw [bpBits_eq_valueBits hlen]
    by_cases hend : 7 * j + i < total
    · simp [valueBits, hend]
    · rw [Nat.testBit_lt_two_pow (hlt.trans_le (Nat.pow_le_pow_right (by decide) (by omega)))]
      simp [valueBits, hend]
  rw [hbit, hstring]

/-- Append leaves every group before the last as it was (R66). -/
theorem dropLast_prefix_bpAppend (groups : List Group) (total value width : Nat) :
    groups.dropLast <+: (bpAppend groups total value width).1 := by
  unfold bpAppend
  split
  · exact List.dropLast_prefix _
  · dsimp only
    split
    · exact (List.dropLast_prefix _).trans (List.prefix_append _ _)
    · exact List.prefix_append _ _

/-- Append leaves every group as it was when the last one is full (R66). -/
theorem prefix_bpAppend {groups : List Group} {total : Nat} (hfull : total % 7 = 0) (value width : Nat) :
    groups <+: (bpAppend groups total value width).1 := by
  simp only [bpAppend, groupWidth, hfull, if_true]
  split
  · exact List.prefix_rfl
  · exact List.prefix_append _ _

/-- Where the front of a list has elements, the list reads as its front. -/
theorem getElem?_of_prefix {α : Type} {front all : List α} (h : front <+: all) {i : Nat} (hi : i < front.length) :
    all[i]? = front[i]? := by
  obtain ⟨back, rfl⟩ := h
  exact List.getElem?_append_left hi

/-- Append leaves the full groups as they were (R67). -/
theorem getElem?_bpAppend_of_full {groups : List Group} {total j : Nat} (hlen : groups.length = (total + 6) / 7)
    (hj : j < total / 7) (value width : Nat) : (bpAppend groups total value width).1[j]? = groups[j]? := by
  by_cases hfull : total % 7 = 0
  · exact getElem?_of_prefix (prefix_bpAppend hfull value width) (by omega)
  · have hlt : j < groups.dropLast.length := by rw [List.length_dropLast]; omega
    rw [getElem?_of_prefix (dropLast_prefix_bpAppend groups total value width) hlt,
      getElem?_of_prefix (List.dropLast_prefix groups) hlt]

/-- Settles O16: on the number an append is an addition, and the bit string and the groups are its bits. -/
theorem appendHasItsClosedForm : Obligations.AppendHasItsClosedForm := by
  intro groups total value width hinv r
  have hinv' := bpInv_bpAppend hinv value width
  have hbits := bpBits_bpAppend hinv value width
  have htotal : r.2 = total + width := bpAppend_total _ _ _ _
  refine ⟨htotal, htotal ▸ hinv', htotal ▸ hbits, fun j hj => ?_, fun j hj => getElem?_bpAppend_of_full hinv.1 hj _ _⟩
  rw [← hbits]
  exact toNat_getD_of_bpInv hinv' hj

/-- Settles O15: `BPAPP` is one append (R70), and what append does to the bit string. -/
theorem bpappAddsTheValueBits : Obligations.BpappAddsTheValueBits := fun s w v hinv hfits =>
  ⟨_, by rw [exec_bpapp_of_within hfits, bpAppend_total], bpBits_bpAppend hinv v w, bpInv_bpAppend hinv v w⟩

/-- Settles O18: both sides have the invariant and the same number. -/
theorem splittingLaw : Obligations.SplittingLaw := by
  intro groups total value width k hinv hk first
  have hfirst : BpInv first.1 (total + k) := bpInv_bpAppend hinv _ _
  have htotal : first.2 = total + k := bpAppend_total _ _ _ _
  have hwidth : total + k + (width - k) = total + width := by omega
  have hvalue : value % 2 ^ width = value % 2 ^ k + 2 ^ k * (value / 2 ^ k % 2 ^ (width - k)) := by
    rw [← Nat.mod_mul, ← pow_add, Nat.add_sub_cancel' hk]
  rw [htotal]
  refine Prod.ext (eq_of_bpInv (hwidth ▸ bpInv_bpAppend hfirst _ _) (bpInv_bpAppend hinv _ _) ?_) ?_
  · rw [packedValue_bpAppend hfirst, packedValue_bpAppend hinv, packedValue_bpAppend hinv, Nat.mod_mod, hvalue,
      Nat.shiftRight_eq_div_pow]
    ring
  · rw [bpAppend_total, bpAppend_total, hwidth]

/-! ### The round trip -/

/-- The number that appends of `(value, width)` to an empty accumulator leave: the fields one above the other (R67). -/
def fieldsValue : List (Nat × Nat) → Nat
  | [] => 0
  | f :: fields => f.1 % 2 ^ f.2 + 2 ^ f.2 * fieldsValue fields

/-- Appends one after the other keep the invariant, add their widths, and put their fields above the bits already there. -/
theorem packedValue_foldl_bpAppend (fields : List (Nat × Nat)) {acc : List Group × Nat} (hinv : BpInv acc.1 acc.2) :
    let r := fields.foldl (fun acc f => bpAppend acc.1 acc.2 f.1 f.2) acc
    BpInv r.1 r.2 ∧ r.2 = acc.2 + (fields.map Prod.snd).sum
      ∧ packedValue r.1 = packedValue acc.1 + 2 ^ acc.2 * fieldsValue fields := by
  induction fields generalizing acc with
  | nil => simpa [fieldsValue] using hinv
  | cons f fields ih =>
    have htotal := bpAppend_total acc.1 acc.2 f.1 f.2
    obtain ⟨hinv', htotal', hvalue⟩ := ih (acc := bpAppend acc.1 acc.2 f.1 f.2) (htotal ▸ bpInv_bpAppend hinv f.1 f.2)
    refine ⟨hinv', ?_, ?_⟩
    · rw [List.foldl_cons, htotal', htotal, List.map_cons, List.sum_cons, Nat.add_assoc]
    · rw [List.foldl_cons, hvalue, packedValue_bpAppend hinv, htotal, fieldsValue, pow_add]
      ring

/-- A field within the groups is that many bits of the number from its position (R75). -/
theorem bpField_eq {groups : List Group} {pos width : Nat} (h : pos + width ≤ 7 * groups.length) :
    bpField groups pos width = packedValue groups / 2 ^ pos % 2 ^ width := by
  rw [← sum_testBit, bpField]
  refine congrArg List.sum (List.map_congr_left fun i hi => ?_)
  have := List.mem_range.1 hi
  rw [bpBit_eq_testBit (by omega), Nat.testBit_div_two_pow, Nat.add_comm]

/-- Unpacking from a position above which the number holds the fields, and no bit past the groups, gives them (R75). -/
theorem bpUnpackFrom_eq (fields : List (Nat × Nat)) {groups : List Group} {pos : Nat}
    (hvalue : packedValue groups / 2 ^ pos = fieldsValue fields)
    (hwithin : pos + (fields.map Prod.snd).sum ≤ 7 * groups.length) :
    bpUnpackFrom groups pos (fields.map Prod.snd) = fields.map fun f => f.1 % 2 ^ f.2 := by
  induction fields generalizing pos with
  | nil => rfl
  | cons f fields ih =>
    rw [List.map_cons, List.sum_cons] at hwithin
    have hfield : bpField groups pos f.2 = f.1 % 2 ^ f.2 := by
      rw [bpField_eq (by omega), hvalue, fieldsValue, Nat.add_mul_mod_self_left, Nat.mod_mod]
    have hrest : packedValue groups / 2 ^ (pos + f.2) = fieldsValue fields := by
      rw [pow_add, ← Nat.div_div_eq_div_mul, hvalue, fieldsValue, Nat.add_mul_div_left _ _ (Nat.two_pow_pos _),
        Nat.div_eq_of_lt (Nat.mod_lt _ (Nat.two_pow_pos _)), Nat.zero_add]
    rw [List.map_cons, bpUnpackFrom, hfield, ih hrest (by omega), List.map_cons]

/-- The padding of a snapshot adds no bit to the number (R68). -/
theorem packedValue_bpSnapshot (groups : List Group) (n : Nat) : packedValue (bpSnapshot groups n) = packedValue groups := by
  have hzeros (k : Nat) : packedValue (List.replicate k 0) = 0 := by
    induction k with
    | zero => rfl
    | succ k ih => rw [List.replicate_succ, packedValue_cons, ih]; rfl
  rw [bpSnapshot, packedValue_append, hzeros, Nat.mul_zero, Nat.add_zero]

/-- Settles O20: the number of the appends holds the fields, and a snapshot's number is the same. -/
theorem unpackRecoversTheValues : Obligations.UnpackRecoversTheValues := by
  intro fields n
  obtain ⟨⟨hlen, -⟩, htotal, hvalue⟩ := packedValue_foldl_bpAppend fields (acc := ([], 0)) bpInv_nil
  have hfields : packedValue (packed fields).1 / 2 ^ 0 = fieldsValue fields := by simpa [packed] using hvalue
  have hwithin : 0 + (fields.map Prod.snd).sum ≤ 7 * (packed fields).1.length := by
    unfold packed
    omega
  refine ⟨bpUnpackFrom_eq fields hfields hwithin, bpUnpackFrom_eq fields ?_ (hwithin.trans ?_)⟩
  · rw [packedValue_bpSnapshot, hfields]
  · rw [bpSnapshot_length]
    omega

/-! ### `BPAPPW` -/

/-- Append reads no bit of the value above its width (R66). -/
theorem bpAppend_congr {v v' width : Nat} (h : v % 2 ^ width = v' % 2 ^ width) (groups : List Group) (total : Nat) :
    bpAppend groups total v width = bpAppend groups total v' width := by
  simp only [bpAppend, h]

/-- The pieces of `BPAPPW` fit the fields of `BPAPP` (R46, R53). -/
theorem wellFormed_of_mem_expandBpappw (fuel w v : Nat) (hfuel : w ≤ fuel) :
    ∀ i ∈ expandBpappw fuel w v, i.wellFormed = true := by
  have hpiece (w v : Nat) (hw : w ≤ 16) : Instr.wellFormed (.bpapp w (v % 2 ^ 16)) = true := by
    have := Nat.mod_lt v (Nat.two_pow_pos 16)
    simp only [Instr.wellFormed, Bool.and_eq_true, decide_eq_true_eq]
    omega
  induction fuel generalizing w v with
  | zero => simpa [expandBpappw] using hpiece w v (by omega)
  | succ fuel ih =>
    rw [expandBpappw]
    split
    · exact List.forall_mem_cons.2 ⟨hpiece 16 v le_rfl, ih _ _ (by omega)⟩
    · simpa using hpiece w v (by omega)

/-- The state after one successful append of the low `w` bits of `v` (R70). -/
def State.appendBits (s : State) (w v : Nat) : State :=
  { s with bpG := (bpAppend s.bpG s.bpTB v w).1, bpTB := s.bpTB + w, status := 0x0000 }

/-- With an unbounded `BP_CAP` every `BPAPP` appends (R70). -/
theorem exec_bpapp_of_inf {s : State} (hcap : s.cfg.bpCap = .inf) (w v : Nat) :
    exec (.bpapp w v) s = .next (s.appendBits w v) := by
  rw [exec_bpapp_of_within (hcap ▸ within_inf _), bpAppend_total]
  rfl

/-- The last piece of `BPAPPW` holds all the bits that remain (R53). -/
theorem execAll_bpapp_last {s : State} (hcap : s.cfg.bpCap = .inf) {w : Nat} (hw : w ≤ 16) (v : Nat) :
    execAll [.bpapp w (v % 2 ^ 16)] s = .next (s.appendBits w v) := by
  rw [execAll_cons_of_next (exec_bpapp_of_inf hcap _ _), execAll, State.appendBits,
    bpAppend_congr (Nat.mod_mod_of_dvd v (Nat.pow_dvd_pow 2 hw))]
  rfl

/-- A low piece of 16 bits and then the rest is one append (R72). -/
theorem appendBits_appendBits {s : State} (hinv : BpInv s.bpG s.bpTB) {w : Nat} (hw : 16 ≤ w) (v : Nat) :
    (s.appendBits 16 (v % 2 ^ 16)).appendBits (w - 16) (v >>> 16) = s.appendBits w v := by
  have hsplit := splittingLaw s.bpG s.bpTB v w 16 hinv hw
  dsimp only at hsplit
  rw [bpAppend_total] at hsplit
  simp only [State.appendBits, hsplit, Nat.add_assoc, Nat.add_sub_cancel' hw]

/-- The pieces of `BPAPPW`, low piece first, are one append of the whole value (R53, R72). -/
theorem execAll_expandBpappw (fuel : Nat) {w : Nat} (v : Nat) (hfuel : w ≤ fuel) {s : State} (hinv : BpInv s.bpG s.bpTB)
    (hcap : s.cfg.bpCap = .inf) : execAll (expandBpappw fuel w v) s = .next (s.appendBits w v) := by
  induction fuel generalizing s w v with
  | zero => exact execAll_bpapp_last hcap (by omega) v
  | succ fuel ih =>
    rw [expandBpappw]
    split
    next hwide =>
      have hpiece : BpInv (s.appendBits 16 (v % 2 ^ 16)).bpG (s.bpTB + 16) := bpInv_bpAppend hinv _ _
      rw [execAll_cons_of_next (exec_bpapp_of_inf hcap _ _), ih (v >>> 16) (by omega) hpiece hcap,
        appendBits_appendBits hinv hwide.le]
    next hnarrow => exact execAll_bpapp_last hcap (by omega) v

/-- Settles O55: the pieces are well-formed, and by the splitting law they are one append. -/
theorem bpappwIsOneWideAppend : Obligations.BpappwIsOneWideAppend := fun _ w v hinv hcap =>
  ⟨wellFormed_of_mem_expandBpappw w w v le_rfl, execAll_expandBpappw w v le_rfl hinv hcap⟩

end Sys2Proof.Machine
end

section
/-! PROOF. What a command does to the input buffers and the accumulator (R26, R32), and the loading of a buffer (R53). -/

namespace Sys2Proof.Machine

@[simp] theorem succeed_buf (s : State) (b : Buf) : (succeed s).buf b = s.buf b := setStatus_buf s _ b

@[simp] theorem produce_buf (bytes : List Byte) (kind : OKind) (s : State) (b : Buf) :
    (produce bytes kind s).buf b = s.buf b := by
  rw [produce, succeed_buf, setOut_buf]

@[simp] theorem raiseError_buf (who : CommandClass) (e : ErrorName) (s : State) (b : Buf) :
    (raiseError who e s).buf b = s.buf b := by
  cases who <;> simp [raiseError]

/-- Every way an input buffer can be after a command (R32, R113 to R115): as before, empty, or longer by some bytes within its
capacity. -/
theorem CommandEnds.buf_cases {s t : State} {i : Instr} (h : CommandEnds s i t) (b : Buf) :
    t.buf b = s.buf b ∨ t.buf b = []
      ∨ ∃ bytes, t.buf b = s.buf b ++ bytes ∧ fits s.cfg.bufCap ((s.buf b).length + bytes.length) = true := by
  cases h with
  | @bufclr b' =>
    by_cases hb : b = b'
    · exact .inr (.inl (by simp [hb]))
    · exact .inl (by simp [hb])
  | @bufpush b' _ hfits | @bufcat b' hfits =>
    by_cases hb : b = b'
    · subst hb
      exact .inr (.inr ⟨_, by simp, hfits⟩)
    · exact .inl (by simp [hb])
  | _ => exact .inl (by simp)

/-- After a command an input buffer is empty or begins with what it held (R32). -/
theorem CommandEnds.buf_prefix {s t : State} {i : Instr} (h : CommandEnds s i t) (b : Buf) :
    t.buf b = [] ∨ s.buf b <+: t.buf b := by
  rcases h.buf_cases b with hsame | hempty | ⟨bytes, happended, -⟩
  · exact .inr (hsame ▸ List.prefix_rfl)
  · exact .inl hempty
  · exact .inr (happended ▸ List.prefix_append _ _)

/-- After a command the accumulator is empty or begins with its groups before the last (R32, R66). -/
theorem CommandEnds.bpG_prefix {s t : State} {i : Instr} (h : CommandEnds s i t) :
    t.bpG = [] ∨ s.bpG.dropLast <+: t.bpG := by
  cases h with
  | bpclr => exact .inl rfl
  | bpapp => exact .inr (dropLast_prefix_bpAppend _ _ _ _)
  | _ => exact .inr (List.dropLast_prefix _)

/-- What a list holds at an index, a list that begins with it holds there too. -/
theorem map_getElem?_of_prefix {α β : Type} {front all : List α} (h : front <+: all) {f : α → β} {i : Nat} {x : β}
    (hx : front[i]?.map f = some x) : all[i]?.map f = some x := by
  obtain ⟨y, hy, -⟩ := Option.map_eq_some_iff.1 hx
  rw [getElem?_of_prefix h (List.getElem?_eq_some_iff.1 hy).1, hx]

/-- Settles O50: after a word each buffer, and the groups before the last, begin what is there, or the space is empty. -/
theorem inputBufferBytesAndEarlierGroupsStay : Obligations.InputBufferBytesAndEarlierGroupsStay := by
  intro w s t h
  have hprefix : (∀ b, t.buf b = [] ∨ s.buf b <+: t.buf b) ∧ (t.bpG = [] ∨ s.bpG.dropLast <+: t.bpG) := by
    rcases runWord_cases h with ⟨i, -, hends⟩ | ⟨e, -, rfl⟩
    · exact ⟨hends.buf_prefix, hends.bpG_prefix⟩
    · exact ⟨fun b => .inr (by simp), .inr (List.dropLast_prefix _)⟩
  refine ⟨fun b i x hx => (hprefix.1 b).imp_right fun hbuf => map_getElem?_of_prefix hbuf hx,
    fun i x hi hx => hprefix.2.imp_right fun hgroups => map_getElem?_of_prefix hgroups ?_⟩
  rwa [← getElem?_of_prefix (List.dropLast_prefix s.bpG) (by rw [List.length_dropLast]; omega)]

/-- The frame, checksum, hex and buffer commands do the same with any accumulator and leave it (R26): no guard and no result of
theirs names it. -/
theorem CommandEnds.setBp {s t : State} {i : Instr} (h : CommandEnds s i t) (hclr : i ≠ .bpclr)
    (happ : ∀ w v, i ≠ .bpapp w v) (hsnap : ∀ n, i ≠ .bpsnap n) (groups : List Group) (total : Nat) :
    CommandEnds (s.setBp groups total) i (t.setBp groups total) ∧ t.bpG = s.bpG ∧ t.bpTB = s.bpTB := by
  cases h with
  | bpclr => exact absurd rfl hclr
  | bpapp | bpappFull => exact absurd rfl (happ _ _)
  | bpsnap | bpsnapFull => exact absurd rfl (hsnap _)
  | _ =>
    refine ⟨?_, rfl, rfl⟩
    constructor <;> assumption

/-- `BPCLR` and `BPAPP` do the same with any buffers and leave them (R26). -/
theorem CommandEnds.setBuffers {s t : State} {i : Instr} (h : CommandEnds s i t) (hi : i = .bpclr ∨ ∃ w v, i = .bpapp w v)
    (m s' d p o : List Byte) (k : OKind) :
    CommandEnds (s.setBuffers m s' d p o k) i (t.setBuffers m s' d p o k) ∧ (∀ b, t.buf b = s.buf b)
      ∧ t.out = s.out ∧ t.okind = s.okind := by
  rcases hi with rfl | ⟨w, v, rfl⟩ <;> cases h
  case inl.bpclr => exact ⟨.bpclr, by simp, rfl, rfl⟩
  case inr.bpapp hfits => exact ⟨.bpapp hfits, by simp, rfl, rfl⟩
  case inr.bpappFull hfull => exact ⟨.bpappFull hfull, by simp, rfl, rfl⟩

/-- Settles O49: the two halves of the table, on the ways a command can end. -/
theorem accumulatorAndBuffersShareNothing : Obligations.AccumulatorAndBuffersShareNothing := by
  refine ⟨fun i s t groups total hclr happ hsnap h => ?_, fun i s t m s' d p o k hi h => ?_⟩
  · obtain ⟨hends, hsame⟩ := ((exec_eq_next_iff i s t).1 h).setBp hclr happ hsnap groups total
    exact ⟨hends.exec_eq, hsame⟩
  · obtain ⟨hends, hsame⟩ := ((exec_eq_next_iff i s t).1 h).setBuffers hi m s' d p o k
    exact ⟨hends.exec_eq, hsame⟩

/-! ### Loading a buffer -/

/-- A second write of a buffer and of `STATUS` is the one that stays. -/
theorem succeed_setBuf_succeed_setBuf (s : State) (b : Buf) (bytes bytes' : List Byte) :
    succeed ((succeed (s.setBuf b bytes)).setBuf b bytes') = succeed (s.setBuf b bytes') := by
  cases b <;> rfl

/-- Writing back what a buffer holds changes nothing. -/
theorem setBuf_self (s : State) (b : Buf) : s.setBuf b (s.buf b) = s := by
  cases b <;> rfl

/-- Pushes of bytes that fit, one after the other, append them (R114). -/
theorem execAll_bufpush (s : State) (b : Buf) (loaded bytes : List Byte)
    (hfits : Within s.cfg.bufCap (loaded ++ bytes).length) :
    execAll (bytes.map (.bufpush b)) (succeed (s.setBuf b loaded)) = .next (succeed (s.setBuf b (loaded ++ bytes))) := by
  induction bytes generalizing loaded with
  | nil => rw [List.append_nil]; rfl
  | cons x bytes ih =>
    have hbuf : (succeed (s.setBuf b loaded)).buf b = loaded := by simp
    rw [← List.singleton_append, ← List.append_assoc] at hfits
    have hpush : exec (.bufpush b x) (succeed (s.setBuf b loaded)) = .next (succeed (s.setBuf b (loaded ++ [x]))) := by
      refine .trans (CommandEnds.bufpush ?_).exec_eq (by rw [hbuf, succeed_setBuf_succeed_setBuf])
      refine (fits_iff _ _).2 fun k hk => ?_
      have hall := hfits k hk
      rw [List.length_append, List.length_append] at hall
      rw [hbuf]
      omega
    rw [List.map_cons, execAll_cons_of_next hpush, ih _ hfits, List.append_assoc, List.singleton_append]

/-- Settles O56: one `BUFCLR`, and then the pushes by induction on the bytes. -/
theorem bufsetLoadsTheBuffer : Obligations.BufsetLoadsTheBuffer := by
  intro s b bytes hfits
  refine ⟨rfl, succeed (s.setBuf b bytes), ?_, succeed_setBuf_effect s b bytes⟩
  rw [expand, execAll_cons_of_next CommandEnds.bufclr.exec_eq]
  exact execAll_bufpush s b [] bytes hfits

/-- Settles O42: the failed snapshot leaves an empty `O`, and the copy of it always fits. -/
theorem bufcatAfterFailedSnapshot : Obligations.BufcatAfterFailedSnapshot := by
  intro s b n c hcap hlt hlen
  have hsnap : CommandEnds s (.bpsnap n) (raiseError .producer .capacityExceeded s) :=
    .bpsnapFull (fits_eq_false_of_lt hcap hlt)
  refine ⟨_, _, hsnap.exec_eq, raiseError_code _ _ _, (CommandEnds.bufcat ((fits_iff _ _).2 fun k hk => ?_)).exec_eq, ?_⟩
  · obtain rfl : c = k := Cap.bounded.inj (hcap.symm.trans hk)
    simpa using hlen
  · rw [raiseError_producer_out, List.append_nil, setBuf_self, raiseError_producer, succeed_eq]

end Sys2Proof.Machine
end

section
/-! PROOF. The step and the host's inputs, the invariant of reachable states, and runs (R10, R40, R140). -/

namespace Sys2Proof.Machine

/-! ### One step -/

/-- A step with an input pending takes it (R10, R140). -/
theorem step_of_pending_cons {s : State} {input : HostInput} {rest : List HostInput} (h : s.pending = input :: rest) :
    step s = runInput input (s.setPending rest) := by
  simp only [step, takeInput, h]

/-- Settles O7: nothing is taken. -/
theorem stepIdlesWithNothingPending : Obligations.StepIdlesWithNothingPending := fun s h => by
  simp only [step, takeInput, h]

/-- Settles O5: the word is taken, and it runs its command. -/
theorem stepRunsTheDecodedCommand : Obligations.StepRunsTheDecodedCommand := fun _ _ _ _ hpending hdecode =>
  (step_of_pending_command hpending).trans (runWord_of_decode_ok hdecode _)

/-- Settles O8: what is issued behind an empty list is its first input, and taking it leaves the list empty again. -/
theorem issuedInputIsTakenNext : Obligations.IssuedInputIsTakenNext := by
  intro s w hempty
  have htaken (input : HostInput) : step (s.setPending (s.pending ++ [input])) = runInput input s := by
    have hself : (s.setPending (s.pending ++ [input])).setPending [] = s := by rw [← hempty]; rfl
    rw [step_of_pending_cons (input := input) (rest := []) (by simp [hempty]), hself]
  exact ⟨htaken (.command w), htaken .reset⟩

/-- Settles O9: the reset is taken, and its record is the one of R28 with the trace, the parameters and the inputs kept. -/
theorem resetInputClearsTheBlock : Obligations.ResetInputClearsTheBlock := fun _ _ hpending =>
  step_of_pending_cons hpending

/-- No guard and no result of a command names the host's inputs (R24). -/
theorem CommandEnds.setPending {s t : State} {i : Instr} (h : CommandEnds s i t) (inputs : List HostInput) :
    CommandEnds (s.setPending inputs) i (t.setPending inputs) := by
  cases h <;> constructor <;> assumption

/-- Every command leaves the parameters (R142). -/
theorem CommandEnds.cfg_eq {s t : State} {i : Instr} (h : CommandEnds s i t) : t.cfg = s.cfg := by
  cases h <;> rfl

/-- An input has the same effect whatever the host has yet to issue, and leaves that and the parameters (R24, R142). -/
theorem exists_runInput (input : HostInput) (s : State) :
    ∃ t : State, t.cfg = s.cfg ∧ ∀ rest, runInput input (s.setPending rest) = .next (t.setPending rest) := by
  cases input with
  | reset => exact ⟨hostReset s, rfl, fun _ => rfl⟩
  | command w =>
    cases hdecode : decode w with
    | ok i =>
      obtain ⟨t, hends⟩ := exists_commandEnds i s
      exact ⟨t, hends.cfg_eq, fun rest => (runWord_of_decode_ok hdecode _).trans (hends.setPending rest).exec_eq⟩
    | error e => exact ⟨raiseError .plain .illegalCommand s, rfl, fun _ => runWord_of_decode_error hdecode _⟩

/-- Settles O11: an idle step takes nothing from an empty list, and any other takes the first input. -/
theorem everyStepTakesOneInput : Obligations.EveryStepTakesOneInput := by
  intro s
  cases hpending : s.pending with
  | nil => exact ⟨s, stepIdlesWithNothingPending s hpending, hpending, rfl⟩
  | cons input rest =>
    obtain ⟨t, hcfg, hrun⟩ := exists_runInput input s
    exact ⟨t.setPending rest, (step_of_pending_cons hpending).trans (hrun rest), rfl, hcfg⟩

/-! ### Runs -/

/-- A machine's run begins with its first step. -/
theorem core_run_succ {M : Host.Core} {s t : M.State} (h : M.step s = .next t) (n : Nat) : M.run (n + 1) s = M.run n t := by
  rw [Host.Core.run, h]

/-- A run of the block begins with its first step. -/
theorem run_succ_of_step {s t : State} (h : step s = .next t) (n : Nat) :
    Host.Core.run Sys2Proof.core (n + 1) s = Host.Core.run Sys2Proof.core n t :=
  core_run_succ (M := Sys2Proof.core) h n

/-- Inputs one after the other begin with the first (R40). -/
theorem runInputs_cons_of_next {input : HostInput} {s t : State} (h : runInput input s = .next t)
    (inputs : List HostInput) : runInputs (input :: inputs) s = runInputs inputs t := by
  simp only [runInputs, h]

/-- Settles O12: by induction on the inputs; each has the same effect before any others. -/
theorem runTakesInputsInOrder : Obligations.RunTakesInputsInOrder := by
  intro inputs rest s
  induction inputs generalizing s with
  | nil => exact ⟨s.setPending rest, rfl, rfl⟩
  | cons input inputs ih =>
    obtain ⟨t, -, heffect⟩ := exists_runInput input s
    have hstep : step (s.setPending (input :: inputs ++ rest)) = .next (t.setPending (inputs ++ rest)) :=
      (step_of_pending_cons rfl).trans (heffect (inputs ++ rest))
    obtain ⟨u, hinputs, hrun⟩ := ih t
    exact ⟨u, (runInputs_cons_of_next (heffect rest) _).trans hinputs, (run_succ_of_step hstep _).trans hrun⟩

/-! ### The invariant -/

/-- Fewer elements are within a capacity that more are within (R5). -/
theorem Within.mono {c : Cap} {m n : Nat} (hn : Within c n) (h : m ≤ n) : Within c m := fun k hk => h.trans (hn k hk)

/-- A command keeps the invariant of the accumulator (R16): only `BPCLR` and `BPAPP` write it. -/
theorem CommandEnds.bpInv {s t : State} {i : Instr} (h : CommandEnds s i t) (hinv : BpInv s.bpG s.bpTB) :
    BpInv t.bpG t.bpTB := by
  cases h with
  | bpclr => exact bpInv_nil
  | @bpapp w v =>
    have hinv' := bpInv_bpAppend hinv v w
    rw [← bpAppend_total s.bpG s.bpTB v w] at hinv'
    exact hinv'
  | _ => exact hinv

/-- After every word `STATUS` holds what R18, R122 and R127 allow. -/
theorem statusInv_of_runWord {w : Word} {s t : State} (h : runWord w s = .next t) : StatusInv t := by
  refine ⟨statusIsOverwrittenWhole.2.1 w s t h, (statusCodesAndWhoRaisesThem.2 w s t h).1, fun hhbd => ?_⟩
  obtain ⟨b, hdecode, hbuf⟩ := (hbd_of_runWord h).1 hhbd
  rw [runWord_of_decode_ok hdecode, exec_fparse_of_heartbeat hbuf] at h
  cases h
  exact code_setStatus s okCode true

/-- A word keeps what `O` can hold beside each `OKIND` (R13). -/
theorem outInv_of_runWord {w : Word} {s t : State} (h : runWord w s = .next t) (hinv : OutInv s) : OutInv t := by
  obtain ⟨-, hproducer, hother⟩ := outputKindNamesTheProducer.2 w s t h
  cases hw : producerWord w with
  | true => exact (hproducer hw).1
  | false =>
    obtain ⟨hout, hokind⟩ := hother hw
    rwa [OutInv, hout, hokind]

/-- A command keeps every input buffer within its capacity (R11): what it adds has passed the capacity test. -/
theorem CommandEnds.buf_within {s t : State} {i : Instr} (h : CommandEnds s i t) (b : Buf)
    (hcap : Within s.cfg.bufCap (s.buf b).length) : Within s.cfg.bufCap (t.buf b).length := by
  rcases h.buf_cases b with hsame | hempty | ⟨bytes, happended, hfits⟩
  · rwa [hsame]
  · rw [hempty]
    exact hcap.mono (Nat.zero_le _)
  · rw [happended, List.length_append]
    exact (within_iff_fits _ _).2 hfits

/-- A command keeps `O` within its capacity (R12): what a producer writes has passed the capacity test, or is read from a text
that is no shorter (R107). -/
theorem CommandEnds.out_within {s t : State} {i : Instr} (h : CommandEnds s i t)
    (hbuf : ∀ b, Within s.cfg.bufCap (s.buf b).length) (hout : Within s.cfg.bufCap s.out.length) :
    Within s.cfg.bufCap t.out.length := by
  cases h with
  | bpsnap hfits =>
    rw [produce_out, List.length_map, bpSnapshot_length]
    exact (within_iff_fits _ _).2 hfits
  | cksum hfits | fbuild _ hfits => exact (within_iff_fits _ _).2 hfits
  | @hexparse b bytes hparse =>
    refine (hbuf b).mono ?_
    have htokens := tokens_length_le (s.buf b)
    rw [← parseHex_length hparse] at htokens
    rw [produce_out]
    omega
  | bpsnapFull | cksumFull | fbuildInvalid | fbuildFull | hexparseMalformed => exact hout.mono (Nat.zero_le _)
  | _ => exact hout

/-- A command keeps the groups within their capacity (R14): the groups of an append are those the capacity test counts. -/
theorem CommandEnds.bpG_within {s t : State} {i : Instr} (h : CommandEnds s i t) (hinv : BpInv s.bpG s.bpTB)
    (hcap : Within s.cfg.bpCap s.bpG.length) : Within s.cfg.bpCap t.bpG.length := by
  cases h with
  | bpclr => exact hcap.mono (Nat.zero_le _)
  | @bpapp w v hfits =>
    have hlen := bpAppend_length hinv.1 v w
    exact (within_iff_fits _ _).2 (hlen ▸ hfits)
  | _ => exact hcap

/-- Every word keeps the invariant. -/
theorem inv_of_runWord {w : Word} {s t : State} (hinv : s.Inv) (h : runWord w s = .next t) : t.Inv := by
  obtain ⟨hbp, -, hout, hbufCap, houtCap, hbpCap⟩ := hinv
  have hstatus' := statusInv_of_runWord h
  have hout' := outInv_of_runWord h hout
  rcases runWord_cases h with ⟨i, -, hends⟩ | ⟨e, -, rfl⟩
  · refine ⟨hends.bpInv hbp, hstatus', hout', ?_⟩
    rw [CapInv, hends.cfg_eq]
    exact ⟨fun b => hends.buf_within b (hbufCap b), hends.out_within hbufCap houtCap, hends.bpG_within hbp hbpCap⟩
  · exact ⟨hbp, hstatus', hout', fun b => by rw [raiseError_buf]; exact hbufCap b, houtCap, hbpCap⟩

/-- The invariant reads neither the trace nor the host's inputs. -/
theorem inv_setDiag_setPending (s : State) (diag : List DiagEvent) (inputs : List HostInput) :
    ((s.setDiag diag).setPending inputs).Inv ↔ s.Inv := Iff.rfl

/-- The state of reset has the invariant: every space is empty and `STATUS` is 0 (R28). -/
theorem inv_resetWith (cfg : Config) : (State.resetWith cfg).Inv := by
  have hzero (c : Cap) : Within c 0 := fun k _ => Nat.zero_le k
  have hbuf (b : Buf) : ((State.resetWith cfg).buf b).length = 0 := congrArg List.length (resetWith_buf cfg b)
  have hcode : (State.resetWith cfg).code = 0x00 := codeBits_statusWord okCode false
  refine ⟨bpInv_nil, ⟨reserved_statusWord okCode false, hcode ▸ List.mem_cons_self, fun _ => hcode⟩,
    ⟨fun _ => rfl, nofun, fun _ _ hx => absurd hx List.not_mem_nil⟩, fun b => ?_, hzero _, hzero _⟩
  rw [hbuf b]
  exact hzero _

/-- Settles O51: the state a run starts from is that of reset with the host's inputs. -/
theorem invariantAtReset : Obligations.InvariantAtReset :=
  ⟨fun cfg inputs => (inv_setDiag_setPending (State.resetWith cfg) [] inputs).2 (inv_resetWith cfg), inv_resetWith _⟩

/-- Every input of the host, a reset among them, keeps the invariant. -/
theorem inv_of_runInput {input : HostInput} {s t : State} (hinv : s.Inv) (h : runInput input s = .next t) : t.Inv := by
  cases input with
  | command w => exact inv_of_runWord hinv h
  | reset =>
    cases h
    exact (inv_setDiag_setPending (State.resetWith s.cfg) s.diag s.pending).2 (inv_resetWith s.cfg)

/-- Settles O52: a step is idle, or it is the effect of one input. -/
theorem everyStepKeepsTheInvariant : Obligations.EveryStepKeepsTheInvariant := by
  intro s t hinv h
  cases hpending : s.pending with
  | nil =>
    rw [stepIdlesWithNothingPending s hpending] at h
    cases h
    exact hinv
  | cons input rest =>
    rw [step_of_pending_cons hpending] at h
    exact inv_of_runInput ((inv_setDiag_setPending s s.diag rest).2 hinv) h

/-- From a state with the invariant a run goes on for any number of steps, keeps the invariant and the parameters, and takes one
input a step. -/
theorem exists_run (n : Nat) {s : State} (hinv : s.Inv) :
    ∃ t, Host.Core.run Sys2Proof.core n s = .next t ∧ t.Inv ∧ t.cfg = s.cfg ∧ t.pending = s.pending.drop n := by
  induction n generalizing s with
  | zero => exact ⟨s, rfl, hinv, rfl, rfl⟩
  | succ n ih =>
    obtain ⟨s', hstep, hpending, hcfg⟩ := everyStepTakesOneInput s
    obtain ⟨t, hrun, hinv', hcfg', hpending'⟩ := ih (everyStepKeepsTheInvariant s s' hinv hstep)
    refine ⟨t, (run_succ_of_step hstep n).trans hrun, hinv', hcfg'.trans hcfg, ?_⟩
    rw [hpending', hpending, List.drop_tail]

/-- A state with the invariant has a safe step. -/
theorem safeStep_of_inv {s : State} (hinv : s.Inv) : SafeStep s := by
  obtain ⟨t, hstep, -⟩ := everyStepTakesOneInput s
  exact ⟨t, hstep, everyStepKeepsTheInvariant s t hinv hstep⟩

/-- Settles O53: the invariant holds at reset, and every step keeps it. -/
theorem everyRunIsSafe : Obligations.EveryRunIsSafe := by
  intro cfg inputs n
  obtain ⟨t, hrun, hinv, hcfg, hpending⟩ := exists_run n (invariantAtReset.1 cfg inputs)
  exact ⟨t, hrun, hinv, hcfg, hpending, safeStep_of_inv hinv⟩

/-! ### A snapshot as the payload -/

/-- Appending a clean `O` to a clean buffer leaves all buffers clean (R89, R115). -/
theorem CommandEnds.clean_of_bufcat {s t : State} {b : Buf} (h : CommandEnds s (.bufcat b) t)
    (hbuf : ∀ b', ∀ x ∈ s.buf b', x.toNat ≤ 0x7F) (hout : ∀ x ∈ s.out, x.toNat ≤ 0x7F) (b' : Buf) :
    ∀ x ∈ t.buf b', x.toNat ≤ 0x7F := by
  cases h with
  | bufcat =>
    rw [succeed_buf, setBuf_buf]
    split
    · exact List.forall_mem_append.2 ⟨hbuf b, hout⟩
    · exact hbuf b'
  | bufcatFull => simpa using hbuf b'

/-- With clean buffers `FBUILD` does not end with `InvalidPayload` (R89). -/
theorem CommandEnds.code_of_fbuild_of_clean {s t : State} (h : CommandEnds s .fbuild t)
    (hbuf : ∀ b, ∀ x ∈ s.buf b, x.toNat ≤ 0x7F) : t.code ≠ 0x01 := by
  cases h with
  | fbuild => rw [produce_code]; decide
  | fbuildFull => rw [raiseError_code]; decide
  | fbuildInvalid hframe =>
    have hclean : ∀ x ∈ s.bufM ++ s.bufS ++ s.bufD ++ s.bufP, x.toNat ≤ 0x7F := by
      simp only [List.forall_mem_append]
      exact ⟨⟨⟨hbuf .m, hbuf .s⟩, hbuf .d⟩, hbuf .p⟩
    cases hframe.symm.trans (buildFrame_eq_ok_of_forall_le hclean)

/-- Settles O23: the invariant says that a snapshot in `O` is clean, and `FBUILD` then finds four clean buffers. -/
theorem snapshotPayloadIsNeverInvalid : Obligations.SnapshotPayloadIsNeverInvalid := by
  rintro s ⟨-, -, ⟨-, -, hout⟩, -⟩ hokind hbuf
  obtain ⟨t, hcat⟩ := exists_commandEnds (.bufcat .p) s
  obtain ⟨u, hbuild⟩ := exists_commandEnds .fbuild t
  have hclean := hcat.clean_of_bufcat hbuf (hout (by rw [hokind]; decide))
  exact ⟨t, u, hcat.exec_eq, hbuild.exec_eq, hbuild.code_of_fbuild_of_clean hclean⟩

end Sys2Proof.Machine
end

section
/-! PROOF. The checksum as a weighted sum, and what follows from it (41_checksum.md). -/

namespace Sys2Proof.Machine

/-- The bytes of a payload weighted by powers of 3, the last byte by 1 (R80). -/
def weightedSum : List Byte → Nat
  | [] => 0
  | b :: payload => b.toNat * 3 ^ payload.length + weightedSum payload

/-- The weighted sum, byte by byte. -/
theorem weightedSum_eq_sum (payload : List Byte) :
    weightedSum payload
      = ((List.range payload.length).map fun i => (payload.getD i 0).toNat * 3 ^ (payload.length - 1 - i)).sum := by
  induction payload with
  | nil => rfl
  | cons b payload ih =>
    rw [weightedSum, ih, List.length_cons, List.range_succ_eq_map, List.map_cons, List.sum_cons, List.map_map]
    refine congrArg₂ _ (by simp) (congrArg List.sum (List.map_congr_left fun i _ => ?_))
    rw [Function.comp_apply, List.getD_cons_succ,
      show payload.length + 1 - 1 - i.succ = payload.length - 1 - i by omega]

/-- A byte's weight grows by a factor of 3 with each byte behind it. -/
theorem weightedSum_append (front back : List Byte) :
    weightedSum (front ++ back) = weightedSum front * 3 ^ back.length + weightedSum back := by
  induction front with
  | nil => simp [weightedSum]
  | cons b front ih =>
    rw [List.cons_append, weightedSum, weightedSum, ih, List.length_append, pow_add]
    ring

/-- The recurrence of R80 from any seed, modulo 256. -/
theorem foldl_ckFold_mod (payload : List Byte) (seed : Nat) :
    payload.foldl ckFold seed % 256 = (seed * 3 ^ payload.length + weightedSum payload) % 256 := by
  induction payload generalizing seed with
  | nil => simp [weightedSum]
  | cons b payload ih =>
    have hround : (seed * 3 + b.toNat) % 256 ≡ seed * 3 + b.toNat [MOD 256] := Nat.mod_modEq _ _
    have hstep := (hround.mul_right (3 ^ payload.length)).add_right (weightedSum payload)
    rw [List.foldl_cons, ih, ckFold, hstep, weightedSum, List.length_cons, pow_succ]
    congr 1
    ring

/-- The checksum from the length and the weighted sum (R80). -/
theorem checksum_eq_weightedSum (payload : List Byte) :
    checksum payload = (payload.length * 3 ^ payload.length + weightedSum payload) % 256 % 128 := by
  rw [← foldl_ckFold_mod, Nat.mod_mod_of_dvd _ (by decide : 128 ∣ 256)]
  rfl

/-- Settles O26: the recurrence unrolled, the weighted sum written byte by byte. -/
theorem checksumIsAWeightedSum : Obligations.ChecksumIsAWeightedSum := fun payload => by
  rw [checksum_eq_weightedSum, weightedSum_eq_sum]

/-- A round of the 8-bit engine is a round of the recurrence (R80, R84). -/
theorem toNat_ckRound (acc : BitVec 8) (b : Byte) : (ckRound acc b).toNat = ckFold acc.toNat b := by
  simp only [ckRound, ckFold, ckMult, ckMod, BitVec.toNat_add, BitVec.toNat_shiftLeft, Nat.shiftLeft_eq]
  omega

/-- The rounds of the 8-bit engine are those of the recurrence (R80, R84). -/
theorem toNat_foldl_ckRound (payload : List Byte) (acc : BitVec 8) :
    (payload.foldl ckRound acc).toNat = payload.foldl ckFold acc.toNat := by
  induction payload generalizing acc with
  | nil => rfl
  | cons b payload ih => rw [List.foldl_cons, List.foldl_cons, ih, toNat_ckRound]

/-- The recurrence gives the same modulo 256 from a seed reduced modulo 256 (R81). -/
theorem foldl_ckFold_mod_seed (payload : List Byte) (seed : Nat) :
    payload.foldl ckFold (seed % 256) % 256 = payload.foldl ckFold seed % 256 := by
  rw [foldl_ckFold_mod, foldl_ckFold_mod]
  exact ((Nat.mod_modEq seed 256).mul_right _).add_right _

/-- Settles O25: the engine's rounds are the recurrence's, and the seed's reduction to 8 bits is lost in the result. -/
theorem engineComputesTheChecksum : Obligations.EngineComputesTheChecksum := by
  intro payload
  have hseed := foldl_ckFold_mod_seed payload payload.length
  rw [checksumEngine, BitVec.extractLsb'_toNat, toNat_foldl_ckRound, BitVec.toNat_ofNat, checksum, ckOutMod]
  simp only [Nat.shiftRight_zero, Nat.reducePow]
  omega

/-- Settles O27: a residue modulo 128, and the recurrence run on five short payloads. -/
theorem checksumRangeAndOrder : Obligations.ChecksumRangeAndOrder :=
  ⟨fun _ => Nat.le_of_lt_succ (Nat.mod_lt _ (by decide)), by decide, by decide, by decide, by decide, by decide⟩

/-- Settles O28: one byte's part of the weighted sum is the byte times a power of 3, and 3 is invertible modulo 128. -/
theorem oneChangedByteIsDetected : Obligations.OneChangedByteIsDetected := by
  intro front back x y hne hx hy heq
  have hlen : (front ++ x :: back).length = (front ++ y :: back).length := by simp
  rw [checksum_eq_weightedSum, checksum_eq_weightedSum, hlen, Nat.mod_mod_of_dvd _ (by decide : 128 ∣ 256),
    Nat.mod_mod_of_dvd _ (by decide : 128 ∣ 256), weightedSum_append, weightedSum_append, weightedSum, weightedSum,
    List.length_cons, List.length_cons] at heq
  have hweighted : x.toNat * 3 ^ back.length ≡ y.toNat * 3 ^ back.length [MOD 128] :=
    ((Nat.ModEq.add_left_cancel' _ heq).add_left_cancel' _).add_right_cancel' _
  have hcoprime : Nat.gcd 128 (3 ^ back.length) = 1 := Nat.Coprime.pow_right _ (by decide)
  have hmod := hweighted.cancel_right_of_coprime hcoprime
  exact hne (BitVec.eq_of_toNat_eq (hmod.eq_of_lt_of_lt (by omega) (by omega)))

end Sys2Proof.Machine
end

section
/-! PROOF. Built frames (42_frame_build.md, 43_frame_parse.md): they are clean, and they parse to their operands. -/

namespace Sys2Proof.Machine

/-- Settles O31: of the ways `FBUILD` ends, the one with `OK` leaves the frame. -/
theorem builtFramesAreClean : Obligations.BuiltFramesAreClean := by
  intro s t h hcode
  cases (exec_eq_next_iff .fbuild s t).1 h with
  | @fbuild frame hframe =>
    have hpos : 0 < frame.length := buildFrame_length hframe ▸ Nat.succ_pos _
    exact ⟨rfl, List.ne_nil_of_length_pos hpos, buildFrame_bytes_le hframe⟩
  | fbuildInvalid | fbuildFull => exact absurd hcode (by simp)

/-- The checksum byte holds the checksum (R83). -/
theorem toNat_checksumByte (payload : List Byte) : (checksumByte payload).toNat = checksum payload :=
  Nat.mod_eq_of_lt (Nat.lt_of_le_of_lt (checksumRangeAndOrder.1 payload) (by decide))

/-- Settles O33: a built frame is its operands and the checksum byte, which the parser finds matching. -/
theorem parseOfBuiltFrame : Obligations.ParseOfBuiltFrame := by
  intro cfg m s d p frame h hm hs hd hne
  obtain ⟨-, rfl⟩ := (buildFrame_eq_ok_iff m s d p frame).1 h
  rw [parseFrame_append hne hm hs hd, decide_eq_true (toNat_checksumByte p).symm]
  rfl

/-- Settles O34: the builder run on the heartbeat's fields; the parser compares with the heartbeat first. -/
theorem heartbeatIsABuiltFrame : Obligations.HeartbeatIsABuiltFrame :=
  ⟨by decide, rfl, fun cfg => (parseFrame_eq_discard_iff cfg heartbeat).2 rfl⟩

end Sys2Proof.Machine
end

section
/-! PROOF. Tokens, hex bytes and dumps (44_hex.md, R60, R104 to R107). -/

namespace Sys2Proof.Machine

/-! ### Tokens -/

/-- The six whitespace codes (R104). -/
theorem isWhitespace_iff (c : Byte) : isWhitespace c = true ↔ c.toNat ∈ [0x20, 0x09, 0x0A, 0x0B, 0x0C, 0x0D] := by
  simp [isWhitespace, BitVec.toNat_eq, or_assoc]

/-- A run with a character in it is a token (R104). -/
theorem flushToken_of_ne_nil {run : List Byte} (h : run ≠ []) : flushToken run = [run] := by
  simp [flushToken, h]

/-- Characters that are not whitespace go on with the token (R104). -/
theorem tokensFrom_run (token : List Byte) {run : List Byte} (hrun : ∀ c ∈ run, isWhitespace c = false) (cs : List Byte) :
    tokensFrom token (run ++ cs) = tokensFrom (token ++ run) cs := by
  induction run generalizing token with
  | nil => simp
  | cons c run ih =>
    obtain ⟨hc, hrun⟩ := List.forall_mem_cons.1 hrun
    rw [List.cons_append, tokensFrom_char _ _ _ hc, ih _ hrun, List.append_assoc, List.singleton_append]

/-- Whitespace before a token adds none (R104). -/
theorem tokens_spaces {spaces : List Byte} (hspaces : ∀ c ∈ spaces, isWhitespace c = true) (cs : List Byte) :
    tokens (spaces ++ cs) = tokens cs := by
  induction spaces with
  | nil => rfl
  | cons c spaces ih =>
    obtain ⟨hc, hspaces⟩ := List.forall_mem_cons.1 hspaces
    rw [List.cons_append, tokens, tokensFrom_space _ _ _ hc]
    exact ih hspaces

/-- A run at the end of a text is the text's last token, when there is one (R104). -/
theorem tokens_run {run : List Byte} (hrun : ∀ c ∈ run, isWhitespace c = false) : tokens run = flushToken run := by
  have h := tokensFrom_run [] hrun []
  rwa [List.append_nil, List.nil_append] at h

/-- A run with whitespace behind it is a token, and the rest is read on its own (R104). -/
theorem tokens_run_space {run : List Byte} (hne : run ≠ []) (hrun : ∀ c ∈ run, isWhitespace c = false) {c : Byte}
    (hc : isWhitespace c = true) (cs : List Byte) : tokens (run ++ c :: cs) = run :: tokens cs := by
  rw [tokens, tokensFrom_run [] hrun, List.nil_append, tokensFrom_space _ _ _ hc, flushToken_of_ne_nil hne]
  rfl

/-- Settles O35: the pieces by induction; each is a run, one whitespace character that ends it, and more whitespace. -/
theorem tokensAreTheMaximalRuns : Obligations.TokensAreTheMaximalRuns := by
  refine ⟨isWhitespace_iff, fun lead last pieces hlead hlast hpieces => ?_⟩
  rw [List.append_assoc, tokens_spaces hlead]
  induction pieces with
  | nil =>
    rw [List.flatMap_nil, List.nil_append, tokens_run hlast, flushToken]
    simp
  | cons p pieces ih =>
    obtain ⟨⟨hne, hrun, hgap, hspaces⟩, hpieces⟩ := List.forall_mem_cons.1 hpieces
    obtain ⟨c, spaces, hcons⟩ := List.exists_cons_of_ne_nil hgap
    rw [hcons] at hspaces
    obtain ⟨hc, hspaces⟩ := List.forall_mem_cons.1 hspaces
    rw [List.flatMap_cons, hcons, List.append_assoc, List.append_assoc, List.cons_append, tokens_run_space hne hrun hc,
      tokens_spaces hspaces, ih hpieces, List.map_cons, List.cons_append]

/-! ### Hex digits and hex bytes -/

/-- The hex digits and their values (R105). -/
theorem hexDigit_eq_some_iff (lower : Bool) (c : Byte) (d : Nat) : hexDigit lower c = some d ↔
    (0x30 ≤ c.toNat ∧ c.toNat ≤ 0x39 ∧ d = c.toNat - 0x30)
      ∨ (0x41 ≤ c.toNat ∧ c.toNat ≤ 0x46 ∧ d = c.toNat - 0x41 + 10)
      ∨ (lower = true ∧ 0x61 ≤ c.toNat ∧ c.toNat ≤ 0x66 ∧ d = c.toNat - 0x61 + 10) := by
  unfold hexDigit
  dsimp only
  split_ifs with hdec hupper hlower
  · rw [Option.some.injEq]; omega
  · rw [Option.some.injEq]; omega
  · rw [Option.some.injEq]
    simp only [hlower.1, true_and]
    omega
  · rw [false_iff]
    rintro (h | h | ⟨hl, h⟩)
    · exact hdec ⟨h.1, h.2.1⟩
    · exact hupper ⟨h.1, h.2.1⟩
    · exact hlower ⟨hl, h.1, h.2.1⟩

/-- A hex digit is below 16 (R105). -/
theorem hexDigit_lt {lower : Bool} {c : Byte} {d : Nat} (h : hexDigit lower c = some d) : d < 16 := by
  rcases (hexDigit_eq_some_iff lower c d).1 h with h | h | ⟨-, h⟩ <;> omega

/-- The byte of a value below 256 is known by its value. -/
theorem ofNat_eq_iff {n : Nat} (hn : n < 256) (x : Byte) : BitVec.ofNat 8 n = x ↔ x.toNat = n := by
  rw [BitVec.toNat_eq, BitVec.toNat_ofNat, Nat.mod_eq_of_lt hn, eq_comm]

/-- The token of one digit has the digit's value (R105). -/
theorem tokenValue_one (lower : Bool) (c x : Byte) :
    tokenValue lower [c] = some x ↔ ∃ d, hexDigit lower c = some d ∧ x.toNat = d := by
  rw [tokenValue, Option.map_eq_some_iff]
  refine exists_congr fun d => and_congr_right fun hd => ofNat_eq_iff ?_ x
  have := hexDigit_lt hd
  omega

/-- The token of two digits has the value of the two, high digit first (R105). -/
theorem tokenValue_two (lower : Bool) (c c' x : Byte) : tokenValue lower [c, c'] = some x ↔
    ∃ d d', hexDigit lower c = some d ∧ hexDigit lower c' = some d' ∧ x.toNat = 16 * d + d' := by
  rw [tokenValue]
  split
  next d d' hd hd' =>
    have := hexDigit_lt hd
    have := hexDigit_lt hd'
    simp [hd, hd', ofNat_eq_iff (show 16 * d + d' < 256 by omega)]
  next hnone =>
    refine ⟨nofun, ?_⟩
    rintro ⟨d, d', hd, hd', -⟩
    exact absurd hd' (hnone d d' hd)

/-- Settles O36: by the number of the token's characters. -/
theorem hexByteTokens : Obligations.HexByteTokens := by
  refine ⟨hexDigit_eq_some_iff, fun lower token x => ?_⟩
  match token with
  | [] => simp [tokenValue]
  | [c] => simp [tokenValue_one]
  | [c, c'] => simp [tokenValue_two]
  | _ :: _ :: _ :: _ => simp [tokenValue]

/-! ### Hex dumps -/

/-- The code of the upper-case digit of a value below 16 (R60). -/
theorem toNat_hexChar {n : Nat} (hn : n < 16) :
    (hexChar n).toNat = if n < 10 then 0x30 + n else 0x41 + (n - 10) := by
  unfold hexChar
  split <;> (rw [BitVec.toNat_ofNat]; omega)

/-- The two halves of a byte are below 16. -/
theorem halves_lt (x : Byte) : x.toNat / 16 < 16 ∧ x.toNat % 16 < 16 := by
  omega

/-- A dump of two bytes or more is three characters and the dump of the rest (R60). -/
theorem hexdump_cons (b : Byte) {bytes : List Byte} (hne : bytes ≠ []) :
    hexdump (b :: bytes) = dumpByte b ++ 0x20 :: hexdump bytes := by
  obtain ⟨b', bs, rfl⟩ := List.exists_cons_of_ne_nil hne
  rfl

/-- The length of a dump (R60). -/
theorem hexdump_length (bytes : List Byte) : (hexdump bytes).length = 3 * bytes.length - 1 := by
  induction bytes with
  | nil => rfl
  | cons b bytes ih =>
    rcases eq_or_ne bytes [] with rfl | hne
    · rfl
    · have := List.length_pos_iff.2 hne
      rw [hexdump_cons b hne, List.length_append, List.length_cons, ih, dumpByte, List.length_cons, List.length_cons,
        List.length_nil, List.length_cons]
      omega

/-- The characters at which byte `i` of a dump stands, and the space behind it (R60). -/
theorem hexdump_getElem? (bytes : List Byte) {i : Nat} {x : Byte} (hx : bytes[i]? = some x) :
    (hexdump bytes)[3 * i]? = some (hexChar (x.toNat / 16)) ∧ (hexdump bytes)[3 * i + 1]? = some (hexChar (x.toNat % 16))
      ∧ (i + 1 < bytes.length → (hexdump bytes)[3 * i + 2]? = some 0x20) := by
  induction bytes generalizing i with
  | nil => simp at hx
  | cons b bytes ih =>
    rcases eq_or_ne bytes [] with rfl | hne
    · obtain ⟨rfl, rfl⟩ : i = 0 ∧ b = x := by simpa [List.getElem?_singleton] using hx
      exact ⟨rfl, rfl, fun h => absurd h (by simp)⟩
    · rw [hexdump_cons b hne]
      cases i with
      | zero =>
        obtain rfl : b = x := Option.some.inj hx
        exact ⟨rfl, rfl, fun _ => rfl⟩
      | succ i =>
        obtain ⟨hhi, hlo, hspace⟩ := ih hx
        exact ⟨hhi, hlo, fun h => hspace (Nat.lt_of_succ_lt_succ h)⟩

/-- Settles O57: the length, and the characters of byte `i` by induction on the bytes. -/
theorem hexdumpHasItsForm : Obligations.HexdumpHasItsForm := by
  intro bytes
  refine ⟨hexdump_length bytes, fun i x hx => ?_⟩
  obtain ⟨hhi, hlo, hspace⟩ := hexdump_getElem? bytes hx
  exact ⟨⟨_, _, hhi, hlo, toNat_hexChar (halves_lt x).1, toNat_hexChar (halves_lt x).2⟩, hspace⟩

/-- The upper-case digit of a value is read as the value, with and without `HEX_LOWER` (R60, R105). -/
theorem hexDigit_hexChar (lower : Bool) {n : Nat} (hn : n < 16) : hexDigit lower (hexChar n) = some n := by
  rw [hexDigit_eq_some_iff, toNat_hexChar hn]
  split <;> omega

/-- A hex digit is no whitespace (R104, R105). -/
theorem isWhitespace_hexChar {n : Nat} (hn : n < 16) : isWhitespace (hexChar n) = false := by
  rw [Bool.eq_false_iff, ne_eq, isWhitespace_iff, toNat_hexChar hn]
  simp only [List.mem_cons, List.not_mem_nil, or_false]
  split <;> omega

/-- The two digits of a byte are a run (R104). -/
theorem isWhitespace_of_mem_dumpByte (b : Byte) : ∀ c ∈ dumpByte b, isWhitespace c = false :=
  List.forall_mem_cons.2 ⟨isWhitespace_hexChar (halves_lt b).1,
    List.forall_mem_singleton.2 (isWhitespace_hexChar (halves_lt b).2)⟩

/-- The two digits of a byte spell the byte (R60, R105). -/
theorem tokenValue_dumpByte (lower : Bool) (b : Byte) : tokenValue lower (dumpByte b) = some b :=
  (tokenValue_two lower _ _ b).2 ⟨_, _, hexDigit_hexChar lower (halves_lt b).1, hexDigit_hexChar lower (halves_lt b).2,
    (Nat.div_add_mod _ 16).symm⟩

/-- The tokens of a dump are its bytes' digits (R60, R104). -/
theorem tokens_hexdump (bytes : List Byte) : tokens (hexdump bytes) = bytes.map dumpByte := by
  induction bytes with
  | nil => rfl
  | cons b bytes ih =>
    rcases eq_or_ne bytes [] with rfl | hne
    · exact tokens_run (isWhitespace_of_mem_dumpByte b)
    · have hspace : isWhitespace 0x20 = true := by decide
      have hdigits : dumpByte b ≠ [] := List.cons_ne_nil _ _
      rw [hexdump_cons b hne, tokens_run_space hdigits (isWhitespace_of_mem_dumpByte b) hspace, ih, List.map_cons]

/-- Settles O38: every token of the dump is the two digits of a byte. -/
theorem hexparseOfDumpGivesTheBytes : Obligations.HexparseOfDumpGivesTheBytes := by
  intro s b bytes hbuf
  refine (CommandEnds.hexparse ((parseHex_eq_ok_iff s.cfg.hexLower (s.buf b) bytes).2 ?_)).exec_eq
  rw [hbuf, tokens_hexdump, List.map_map]
  exact List.map_congr_left fun x _ => tokenValue_dumpByte s.cfg.hexLower x

end Sys2Proof.Machine
end

section
/-! PROOF. One command after reset with the default parameters (70_reset_and_hazards.md, section 2). -/

namespace Sys2Proof.Machine

/-- The first step after reset runs the command that the one word issued decodes to. -/
theorem step_reset_issueNext {w : Word} {i : Instr} {t : State} (hdecode : decode w = .ok i)
    (hends : CommandEnds State.reset i t) : step (State.reset.issueNext w) = .next t :=
  (stepRunsTheDecodedCommand (State.reset.issueNext w) w [] i rfl hdecode).trans hends.exec_eq

/-- Settles O54: the five words decoded, and the way each command ends after reset. -/
theorem firstCommandsAfterReset : Obligations.FirstCommandsAfterReset :=
  ⟨step_reset_issueNext (i := .bpsnap 8) rfl (.bpsnap rfl), step_reset_issueNext (i := .cksum .p) rfl (.cksum rfl),
    step_reset_issueNext (i := .fbuild) rfl (.fbuild (frame := [0]) rfl rfl),
    step_reset_issueNext (i := .fparse .p) rfl (.fparseLog rfl),
    step_reset_issueNext (i := .hexparse .p) rfl (.hexparse (bytes := []) rfl)⟩

/-- Settles O58: the five words decoded, and the way each command ends after reset. -/
theorem otherFiveCommandsAfterReset : Obligations.OtherFiveCommandsAfterReset :=
  ⟨step_reset_issueNext (i := .bpclr) rfl .bpclr, step_reset_issueNext (i := .bpapp 8 0xFF) rfl (.bpapp rfl),
    step_reset_issueNext (i := .bufclr .p) rfl .bufclr, step_reset_issueNext (i := .bufpush .s 0xFF) rfl (.bufpush rfl),
    step_reset_issueNext (i := .bufcat .p) rfl (.bufcat rfl)⟩

end Sys2Proof.Machine
end
